-- ==== Sys2Proof/Word.lean ====
section
/-!
DEFINITION. The word types of the block: the widths of the command word (R51), of a buffer byte (R10), of a cursor
register (POS_W = 28, R6, R19) and of a response word (R62), and the range of N.
-/

namespace Sys2Proof

/-- A command word `cmd[31:0]` (R51). -/
abbrev Word := BitVec 32

/-- A byte of the buffer, 0 to 255 (R10). -/
abbrev Byte := BitVec 8

/-- A cursor register: `readPos`, `writePos`, `FAULT_POS`, and SEEK's position field. POS_W is fixed at 28 (R6). -/
abbrev Pos := BitVec 28

/-- A response word `resp[15:0]` (R62). -/
abbrev RespWord := BitVec 16

/-- The legal values of N: `0 ≤ N ≤ 2^25 - 1` (R6). An illegal N has no representation, so the launch premise WF_N
(R132) holds of every state by its type. -/
abbrev ByteCount := Fin (2 ^ 25)

end Sys2Proof
end

