-- ==== Sys2Proof/Syntax.lean ====
section
/-!
DEFINITION. The instructions: one constructor per row of spec/opcode_table.json (R57, R58).
-/

namespace Sys2Proof

/-- The block's commands, as decoding yields them (R58). -/
inductive Instr where
  /-- READ (the source's readBits), format R (R53): `w` is the field `W = cmd[3:0]`, 0 to 15. The legal widths are 1 to
  8; the others decode and fault when performed (R55). -/
  | read (w : BitVec 4)
  /-- SEEK (the source's resetRead), format S (R54): `pos` is the field `POS = cmd[27:0]` (R56). -/
  | seek (pos : BitVec 28)
  /-- ILLEGAL: any other word, kept whole, since its fault records it (R95). -/
  | illegal (cmd : BitVec 32)
  deriving DecidableEq, Repr

end Sys2Proof
end

