-- ==== Sys2Proof/WellFormed.lean ====
section
/-!
DEFINITION. Which terms of Instr stand for a word of the opcode map. The one check is that an ILLEGAL term holds a word
that R60 lists; it is written from R60 itself, not from the decoder.
-/

namespace Sys2Proof

/-- R60's list of the ILLEGAL words: OP 0x0, 0x3 or 0x4 to 0xF, and OP = 0x1 with any bit of `cmd[27:4]` set. -/
def isIllegalWord (cmd : Word) : Bool :=
  let op := (cmd >>> 28).toNat
  let rz := (cmd >>> 4).toNat % 2 ^ 24
  op == 0 || decide (3 ≤ op) || (op == 1 && rz != 0)

/-- READ and SEEK take every value of their field (R55, R56: an illegal width or position decodes and faults when
performed), so only ILLEGAL has something to check. -/
def Instr.wellFormed : Instr → Bool
  | .read _ => true
  | .seek _ => true
  | .illegal cmd => isIllegalWord cmd

/-- The same as a proposition that `decide` runs on. -/
abbrev WellFormed (i : Instr) : Prop := i.wellFormed = true

end Sys2Proof
end

