-- ==== Sys2Proof/Decode.lean ====
section
/-!
DEFINITION. Decoding a command word (R51 to R58), total, with every other word rejected by name as ILLEGAL; then the
encoder, written from the same tables (R53, R54), and the host's view of the decoder.
-/

namespace Sys2Proof

/-- `OP = cmd[31:28]`, the only opcode field (R52). -/
def opField (cmd : Word) : BitVec 4 := cmd.extractLsb' 28 4

/-- `RZ = cmd[27:4]`, READ's reserved field, which is checked (R53, R60). -/
def rzField (cmd : Word) : BitVec 24 := cmd.extractLsb' 4 24

/-- `W = cmd[3:0]`, READ's width field (R53, R55). -/
def widthField (cmd : Word) : BitVec 4 := cmd.extractLsb' 0 4

/-- `POS = cmd[27:0]`, SEEK's position field (R54, R56). -/
def posField (cmd : Word) : BitVec 28 := cmd.extractLsb' 0 28

/-- R58's `decode`, in its order: READ when OP = 0x1 and RZ = 0, SEEK when OP = 0x2, ILLEGAL otherwise. -/
def decode (cmd : Word) : Instr :=
  if opField cmd = 0x1#4 ∧ rzField cmd = 0#24 then .read (widthField cmd)
  else if opField cmd = 0x2#4 then .seek (posField cmd)
  else .illegal cmd

/-- The word of an instruction: `0001 0…0 wwww` (R53), `0010 p…p` (R54), and an ILLEGAL word itself (R64's `.word`). -/
def encode : Instr → Word
  | .read w => 0x1#4 ++ 0#24 ++ w
  | .seek pos => 0x2#4 ++ pos
  | .illegal cmd => cmd

/-- The instruction the decoder reads from an instruction word whose low `nbits` bits are those of `w` and whose other
bits are 0. A command is one 32-bit unit (R51), so there is no byte order to lay out. A longer one does not exist. -/
def decodeTableWord (nbits w : Nat) : Option Instr :=
  if nbits ≤ 32 then some (decode (BitVec.ofNat 32 (w % 2 ^ nbits))) else none

end Sys2Proof
end

