-- ==== Sys2Proof/Config.lean ====
section
/-!
DEFINITION. What is fixed for the block, and the launch parameters that State.reset starts with. The spec leaves no
result of a command open, so there is no free value here.
-/

namespace Sys2Proof

/-- The largest legal N, `2^25 - 1` (R6): with it every byte index that any launch can have exists. -/
def Config.maxBytes : Nat := 2 ^ 25 - 1

/-- N at State.reset. DESIGN CHOICE (notes/assumptions/2.md): the spec makes N a parameter of the launch (R6) and gives
no value; the largest legal one is taken. Unsafe: no device need have this N. -/
def Config.resetByteCount : ByteCount := ⟨2 ^ 25 - 1, by decide⟩

/-- NUM_READERS at State.reset. DESIGN CHOICE (notes/assumptions/2.md): R6 gives only `≥ 1`. Unsafe. -/
def Config.resetReaderCount : Nat := 1

/-- TRACE_EN at State.reset. DESIGN CHOICE (notes/assumptions/2.md): R6 allows either. Unsafe. -/
def Config.resetTraceEn : Bool := true

/-- What a byte of the buffer below N reads as when the cell list does not name it. DESIGN CHOICE
(notes/assumptions/3.md): the contents of BUF are the host's (R6, R17), and the list only leaves out its 0x00 bytes.
Unsafe at State.reset, where no host has supplied a buffer. -/
def Config.unlistedByte : Byte := 0x00

end Sys2Proof
end

