-- ==== Sys2Proof/Machine/State.lean ====
section
/-!
DEFINITION. The machine's state as plain data: the six registers of each Reader (R19), the launch parameters (R6), the
moves the host has still to make, and what each Reader has put out. Then the reasons a step can stop, and reset.
-/

namespace Sys2Proof.Machine

/-- The buffer's bytes as (byte index, byte) pairs: strictly rising indexes, none equal to what an unlisted index reads
as (`Memory.wf`). It is read only (R17, R42). -/
abbrev Memory := List Host.Cell

/-- The causes a contract violation can have: codes 1 to 6 of R98. Code 0 (NONE) is no cause, and codes 7 to 15 are
never written. -/
inductive Cause where
  /-- Code 1: any ILLEGAL word. -/
  | illegalCommand
  /-- Code 2: READ with `n = 0` or `n ≥ 9`. -/
  | widthRange
  /-- Code 3: READ with a legal width and `readPos + n > CAP`. -/
  | readOverrun
  /-- Code 4: SEEK with `pos > CAP`. -/
  | seekRange
  /-- Code 5: SELECT with `start > stop` or `stop > 7`; no command reaches it (R72). -/
  | selectRange
  /-- Code 6: SHIFT with `start > 7` or `offset > 8`; no command reaches it (R72). -/
  | shiftRange
  deriving DecidableEq, Repr

/-- What `raise Fault(cause, info)` names (R12): the violation with the operands that failed. R103: the info is not
stored; `FAULT_CMD` and `FAULT_POS` hold it. -/
inductive Violation where
  | illegalCommand (cmd : Word)
  | widthRange (n : Nat)
  | readOverrun (p n : Nat)
  | seekRange (pos : Nat)
  | selectRange (start stop : Nat)
  | shiftRange (start offset : Nat)
  deriving DecidableEq, Repr

/-- A response (R62). -/
inductive Response where
  /-- A successful READ's value. -/
  | data (v : Byte)
  /-- A successful SEEK's acknowledgement. -/
  | ack
  /-- A command that raised a fault. -/
  | fault (c : Cause)
  deriving DecidableEq, Repr

/-- One trace event `(r, cmd, p_before, response, readPos_after)` (R116). -/
structure TraceEvent where
  r            : Nat
  cmd          : Word
  pBefore      : Pos
  response     : Response
  readPosAfter : Pos
  deriving DecidableEq, Repr

/-- The registers of one Reader: exactly those of R19. -/
structure Reader where
  /-- The read cursor (R20). -/
  readPos  : Pos
  /-- The write cursor, reserved (R21). -/
  writePos : Pos
  /-- FAULTED (R22). -/
  faulted  : Bool
  /-- CAUSE (R23): 0 is NONE, otherwise the code of R98. -/
  cause    : BitVec 4
  /-- FAULT_CMD (R24). -/
  faultCmd : Word
  /-- FAULT_POS (R25). -/
  faultPos : Pos
  deriving DecidableEq, Repr

/-- The status outputs, visible to the host at all times (R63). -/
structure StatusOutputs where
  faulted  : Bool
  cause    : BitVec 4
  faultCmd : Word
  faultPos : Pos
  deriving DecidableEq, Repr

/-- One Reader with what it has put out in its current launch (R131, R134), oldest first. DESIGN CHOICE
(notes/assumptions/6.md): the two lists are the model's record of outputs; no command reads them. Safe. -/
structure Slot where
  reader    : Reader
  responses : List Response
  trace     : List TraceEvent
  deriving DecidableEq, Repr

/-- What the host can do between two commands (R124's liberties, and R121, R122 between launches). No move changes the
buffer during a launch (R126), and none overlaps two commands (R127). -/
inductive HostMove where
  /-- Present the command word `cmd` to Reader `r` (R51, R87). -/
  | command (r : Nat) (cmd : Word)
  /-- Assert the reset input of Reader `r` (R119). -/
  | reset (r : Nat)
  /-- Start new launches over a new buffer: N and BUF are fixed to `bytes`, and every Reader is reset (R121, R122). -/
  | boot (bytes : List Byte)
  deriving DecidableEq, Repr

/-- Everything the block and its host interface hold. -/
structure State where
  /-- N, the number of bytes in the buffer (R6). Written by no command. -/
  nBytes    : ByteCount
  /-- BUF (R6, R17). Written by no command. -/
  buf       : Memory
  /-- TRACE_EN (R6, R116). Written by nothing. -/
  traceEn   : Bool
  /-- The Readers, by index; NUM_READERS is their number (R115). -/
  slots     : List Slot
  /-- The index of the Reader the command word is presented to (R115). DESIGN CHOICE (notes/assumptions/7.md). Safe. -/
  port      : Nat
  /-- The moves the host has still to make, oldest first. DESIGN CHOICE (notes/assumptions/4.md). Safe. -/
  hostMoves : List HostMove
  deriving DecidableEq, Repr

/-- Why the machine stops with a fault. (A fault of the spec, R97, is not one of these: it is a next state.) -/
inductive Fault where
  /-- Raised by `memRead` for a byte index `i ≥ N`: such a read must fault and never return a value (R12, I18). No
  command reaches it (R83). Safe: nothing is assumed of such a read. -/
  | bufferIndex (i : Nat)
  deriving DecidableEq, Repr

/-- Why the model has no meaning for a step. -/
inductive Refusal where
  /-- An instruction without a meaning in this model. No arm answers it. Safe. -/
  | notModelled (mnemonic : String)
  /-- Raised by a host move to a Reader index `r ≥ NUM_READERS`, which does not exist (R115). Safe: a host has no such
  port, and no statement follows. -/
  | noSuchReader (r : Nat)
  /-- Raised by `boot` with more than `2^25 - 1` bytes, which R6 does not allow and D3 says the model refuses. Safe. -/
  | bufferTooLong (length : Nat)
  deriving DecidableEq, Repr

/-- The reset values of R32. -/
def Reader.reset : Reader :=
  { readPos := 0, writePos := 0, faulted := false, cause := 0, faultCmd := 0, faultPos := 0 }

/-- A Reader at the start of a launch (R131): reset, with nothing put out yet. -/
def Slot.reset : Slot := { reader := Reader.reset, responses := [], trace := [] }

/-- The machine right after reset: every Reader at R32's values, over the launch parameters of Config, the host having
made no move yet. DESIGN CHOICE for the parameters (notes/assumptions/2.md), unsafe. -/
def State.reset : State :=
  { nBytes := Config.resetByteCount
    buf := []
    traceEn := Config.resetTraceEn
    slots := List.replicate Config.resetReaderCount Slot.reset
    port := 0
    hostMoves := [] }

end Sys2Proof.Machine
end

