-- ==== Sys2Proof/Machine/Ops.lean ====
section
/-!
DEFINITION. The named operations over the buffer and the Readers: reading a byte, building a buffer, taking a fault,
answering a command, performing one command word, and the host's other moves.
-/

namespace Sys2Proof.Machine

/-! ### The buffer -/

/-- What the cell list says of byte index `i`, with no bounds check. -/
def Memory.read : Memory → Nat → Byte
  | [], _ => Config.unlistedByte
  | (a, b) :: m, i => if a = i then b else Memory.read m i

/-- The canonical form of a cell list, from index `lo` up: indexes strictly rising and below `n`, no listed byte equal
to what an unlisted index reads as. -/
def Memory.wfFrom (lo n : Nat) : Memory → Bool
  | [] => true
  | (a, b) :: m => decide (lo ≤ a) && decide (a < n) && (b != Config.unlistedByte) && Memory.wfFrom (a + 1) n m

/-- The canonical form of a buffer of `n` bytes. With it, equal buffers are equal lists. -/
def Memory.wf (n : Nat) (m : Memory) : Bool := Memory.wfFrom 0 n m

/-- The cells of the bytes `bytes` laid out from index `i` up. -/
def Memory.ofBytesFrom : Nat → List Byte → Memory
  | _, [] => []
  | i, b :: bs =>
    if b = Config.unlistedByte then Memory.ofBytesFrom (i + 1) bs else (i, b) :: Memory.ofBytesFrom (i + 1) bs

/-- "build a BitBuffer over an existing byte array" (R121): byte `i` of the list is `BUF[i]`. -/
def Memory.ofBytes (bytes : List Byte) : Memory := Memory.ofBytesFrom 0 bytes

/-! ### What ends an operation early -/

/-- Why an operation inside a command gives no result: it raised a contract violation (R12), or it asked for a byte the
buffer does not have (I18). -/
inductive Stop where
  | violation (v : Violation)
  | fault (f : Fault)
  deriving DecidableEq, Repr

/-- The result of an operation that can raise. -/
abbrev Result (α : Type) := Except Stop α

/-- `raise Fault(cause, info)` (R12). -/
def raise {α : Type} (v : Violation) : Result α := .error (.violation v)

/-- `MemRead(i, 1)` (R12): byte `i` of the buffer. A read at `i ≥ N` never happens (R83); here it faults and returns no
value (I18). DEDUCED (notes/assumptions/10.md), safe. -/
def memRead (nBytes : ByteCount) (buf : Memory) (i : Nat) : Result Byte :=
  if i < nBytes.val then .ok (buf.read i) else .error (.fault (.bufferIndex i))

/-- `CAP = 8 * N`, the number of addressable bits (R6). -/
abbrev capacity (nBytes : ByteCount) : Nat := 8 * nBytes.val

/-! ### Faults -/

/-- The code that `CAUSE` takes for a cause (R98). -/
def Cause.code : Cause → BitVec 4
  | .illegalCommand => 1
  | .widthRange => 2
  | .readOverrun => 3
  | .seekRange => 4
  | .selectRange => 5
  | .shiftRange => 6

/-- The cause of a violation (R98). -/
def Violation.cause : Violation → Cause
  | .illegalCommand _ => .illegalCommand
  | .widthRange _ => .widthRange
  | .readOverrun _ _ => .readOverrun
  | .seekRange _ => .seekRange
  | .selectRange _ _ => .selectRange
  | .shiftRange _ _ => .shiftRange

/-- FAULT_ENTRY (R103), TAKING AN EXCEPTION: the cursor as the command found it, the command word and the cause are
recorded, and FAULTED becomes 1. `readPos` and `writePos` are not written. There is no return from it (R106): only reset
leaves the faulted state. -/
def Reader.faultEntry (rd : Reader) (c : Cause) (cmd : Word) : Reader :=
  { rd with faultPos := rd.readPos, faultCmd := cmd, cause := c.code, faulted := true }

/-! ### The cursor -/

/-- `readPos <- v` (R12). The register has 28 bits; every value a command writes is at most `CAP ≤ 2^28 - 8` and fits
(R45). -/
def Reader.setReadPos (rd : Reader) (v : Nat) : Reader := { rd with readPos := BitVec.ofNat 28 v }

/-! ### One command of one Reader -/

/-- The Reader the command word is presented to, if the index names one. -/
def State.current (s : State) : Option Slot := s.slots[s.port]?

/-- The trace event of a command, when TRACE_EN is true (R116). -/
def traceOf (traceEn : Bool) (r : Nat) (cmd : Word) (before after : Reader) (resp : Response) : List TraceEvent :=
  if traceEn then
    [{ r := r, cmd := cmd, pBefore := before.readPos, response := resp, readPosAfter := after.readPos }]
  else []

/-- The Reader's registers after a command, its one response (R62) and its trace event (R116), put together as one
atomic event (R43, R96). -/
def Slot.complete (sl : Slot) (traceEn : Bool) (r : Nat) (cmd : Word) (rd : Reader) (resp : Response) : Slot :=
  { reader := rd
    responses := sl.responses ++ [resp]
    trace := sl.trace ++ traceOf traceEn r cmd sl.reader rd resp }

/-- The state with Reader `r` replaced; every other Reader, the buffer and the parameters stay (R48, R94). -/
def State.setSlot (s : State) (r : Nat) (sl : Slot) : State := { s with slots := s.slots.set r sl }

/-- One command word at the current Reader (R87). `act` is what the command does with the Reader's registers: new
registers and a response, or a raise, which takes the fault entry (R103) with nothing of the command kept. A faulted
Reader performs no command: no step, no response, no state change (R105). -/
def perform (s : State) (cmd : Word) (act : Reader → Result (Reader × Response)) :
    Host.Outcome State Fault Refusal :=
  match s.current with
  | none => .refused (.noSuchReader s.port)
  | some sl =>
    if sl.reader.faulted then .next s
    else
      match act sl.reader with
      | .ok (rd, resp) => .next (s.setSlot s.port (sl.complete s.traceEn s.port cmd rd resp))
      | .error (.violation v) =>
        .next (s.setSlot s.port
          (sl.complete s.traceEn s.port cmd (sl.reader.faultEntry v.cause cmd) (.fault v.cause)))
      | .error (.fault f) => .fault f

/-! ### The host's moves -/

/-- The host presents a command word to Reader `r`, and `rest` is left to do. -/
def State.present (s : State) (r : Nat) (rest : List HostMove) : State := { s with port := r, hostMoves := rest }

/-- The reset input of Reader `r` (R119): its registers take R32's values, whether or not it is faulted, and a new launch
of it begins (R131). No other Reader changes, nor BUF and N (R120). -/
def resetReader (s : State) (r : Nat) : Host.Outcome State Fault Refusal :=
  if r < s.slots.length then .next (s.setSlot r Slot.reset) else .refused (.noSuchReader r)

/-- A new buffer (R121, R122): N and BUF are fixed, and every Reader is reset over it, so that a new launch of each
begins. DESIGN CHOICE (notes/assumptions/9.md), safe. -/
def bootBuffer (s : State) (bytes : List Byte) : Host.Outcome State Fault Refusal :=
  if h : bytes.length < 2 ^ 25 then
    .next { s with
      nBytes := ⟨bytes.length, h⟩
      buf := Memory.ofBytes bytes
      slots := s.slots.map (fun _ => Slot.reset) }
  else .refused (.bufferTooLong bytes.length)

end Sys2Proof.Machine
end

