-- ==== Sys2Proof/Machine/Primitives.lean ====
section
/-!
DEFINITION. The bit primitives SELECT and SHIFT (R67 to R72): pure functions of bytes, called by EXTRACT alone.
-/

namespace Sys2Proof.Machine

/-- R69's mask, `trunc_8(0xFF << start) & (0xFF >> (7 - stop))`. -/
def selMask (start stop : Nat) : Byte := (0xFF#8 <<< start) &&& (0xFF#8 >>> (7 - stop))

/-- SELECT (R68): `v` with every bit outside `[start, stop]` cleared. -/
def select (v : Byte) (start stop : Nat) : Result Byte :=
  if start ≤ stop ∧ stop ≤ 7 then .ok (v &&& selMask start stop) else raise (.selectRange start stop)

/-- SHIFT (R70): `(v >> start) << offset` truncated to 8 bits; the right shift fills with zeros (G3). -/
def shift (v : Byte) (start : Nat) (offset : Nat := 0) : Result Byte :=
  if start ≤ 7 ∧ offset ≤ 8 then .ok ((v >>> start) <<< offset) else raise (.shiftRange start offset)

end Sys2Proof.Machine
end

