-- ==== Sys2Proof/Machine/Extractor.lean ====
section
/-!
DEFINITION. EXTRACT (R73 to R86): a pure function of `(BUF, N, p, n)`, with each intermediate value of R75 under its own
name; and the packing rule (R13, R36) that its result obeys. Position arithmetic is on Nat and exact (R82).
-/

namespace Sys2Proof.Machine

/-! ### The intermediate values of R75 -/

/-- Step 1. -/
def localStart (p : Nat) : Nat := p % 8

/-- Step 1. -/
def localEnd (p n : Nat) : Nat := (p + n - 1) % 8

/-- Step 1. -/
def byteFirst (p : Nat) : Nat := p / 8

/-- Step 1. -/
def byteLast (p n : Nat) : Nat := (p + n - 1) / 8

/-- Step 2. -/
def twoBytes (p n : Nat) : Bool := decide (localEnd p n < localStart p)

/-- Step 3: bits from the first byte. -/
def countFirst (p n : Nat) : Nat := min (8 - localStart p) n

/-- Step 4: bits from the second byte. -/
def countSecond (p n : Nat) : Nat := n - countFirst p n

/-- Step 5. -/
def firstPart (nBytes : ByteCount) (buf : Memory) (p n : Nat) : Result Byte := do
  let byte ← memRead nBytes buf (byteFirst p)
  let field ← select byte (localStart p) (if twoBytes p n then 7 else localEnd p n)
  shift field (localStart p)

/-- Step 6. The second byte is read only when the field reaches into it. -/
def secondPart (nBytes : ByteCount) (buf : Memory) (p n : Nat) : Result Byte :=
  if twoBytes p n then do
    let byte ← memRead nBytes buf (byteLast p n)
    let field ← select byte 0 (localEnd p n)
    shift field 0 (countFirst p n)
  else .ok 0

/-- EXTRACT: the checks of R74 in their order, before any buffer read, then the steps of R75. It gives
`(value, newPos)`. -/
def extract (nBytes : ByteCount) (buf : Memory) (p n : Nat) : Result (Byte × Nat) :=
  if ¬(1 ≤ n ∧ n ≤ 8) then raise (.widthRange n)
  else if ¬(p + n ≤ capacity nBytes) then raise (.readOverrun p n)
  else do
    let first ← firstPart nBytes buf p n
    let second ← secondPart nBytes buf p n
    pure (first ||| second, p + n)

/-! ### The packing rule -/

/-- `bitAt(q) = (buf[q div 8] >> (q mod 8)) & 1` (R13). -/
def bitAt (buf : Memory) (q : Nat) : Nat := ((buf.read (q / 8)).toNat >>> (q % 8)) &&& 1

/-- `Σ_{j=0}^{n-1} bitAt(p + j) * 2^j` (R36), the earliest bit least significant. -/
def packedField (buf : Memory) (p : Nat) : Nat → Nat
  | 0 => 0
  | n + 1 => packedField buf p n + bitAt buf (p + n) * 2 ^ n

end Sys2Proof.Machine
end

