-- ==== Sys2Proof/Machine/Operands.lean ====
section
/-!
DEFINITION. The operand forms: READ's width (R55), SEEK's position (R56) and READ's implicit cursor (R88). There is no
other addressing mode.
-/

namespace Sys2Proof.Machine

/-- `n = zext(cmd[3:0])`, 0 to 15, neither sign-extended nor scaled nor offset (R55). -/
def widthOperand (w : BitVec 4) : Nat := w.toNat

/-- `pos = zext(cmd[27:0])`, in bits, absolute (R56). -/
def posOperand (pos : BitVec 28) : Nat := pos.toNat

/-- READ's implicit operand, `p <- readPos` (R88). -/
def cursorOperand (rd : Reader) : Nat := rd.readPos.toNat

end Sys2Proof.Machine
end

