-- ==== Sys2Proof/Machine/ReaderCommands.lean ====
section
/-!
DEFINITION. The Reader's commands (R87 to R96): what each does with the Reader's registers, and the meanings that
Dispatch calls. The word a fault records is the encoding of the instruction performed, which is the word itself
(DEDUCED, notes/assumptions/11.md, safe).
-/

namespace Sys2Proof.Machine

/-- READ_exec(n) (R88): extract at the cursor, advance the cursor, answer with the value. -/
def readAct (nBytes : ByteCount) (buf : Memory) (n : Nat) (rd : Reader) : Result (Reader × Response) := do
  let (value, newPos) ← extract nBytes buf (cursorOperand rd) n
  pure (rd.setReadPos newPos, .data value)

/-- SEEK_exec(pos) (R91): any position from 0 to CAP, backward or forward; a larger one raises SEEK_RANGE. -/
def seekAct (nBytes : ByteCount) (pos : Nat) (rd : Reader) : Result (Reader × Response) :=
  if pos ≤ capacity nBytes then .ok (rd.setReadPos pos, .ack) else raise (.seekRange pos)

/-- ILLEGAL (R95): always raises ILLEGAL_COMMAND. -/
def illegalAct (cmd : Word) (_ : Reader) : Result (Reader × Response) := raise (.illegalCommand cmd)

/-- READ n (R88). -/
def execRead (w : BitVec 4) (s : State) : Host.Outcome State Fault Refusal :=
  perform s (encode (.read w)) (readAct s.nBytes s.buf (widthOperand w))

/-- SEEK pos (R91). -/
def execSeek (pos : BitVec 28) (s : State) : Host.Outcome State Fault Refusal :=
  perform s (encode (.seek pos)) (seekAct s.nBytes (posOperand pos))

/-- An ILLEGAL word (R95). -/
def execIllegal (cmd : BitVec 32) (s : State) : Host.Outcome State Fault Refusal :=
  perform s (encode (.illegal cmd)) (illegalAct cmd)

end Sys2Proof.Machine
end

