-- ==== Sys2Proof/Machine/Dispatch.lean ====
section
/-! DEFINITION. The meaning of each instruction, one arm per constructor. -/

namespace Sys2Proof.Machine

def exec (i : Instr) (s : State) : Host.Outcome State Fault Refusal :=
  match i with
  | .read w => Sys2Proof.Machine.execRead w s
  | .seek pos => Sys2Proof.Machine.execSeek pos s
  | .illegal cmd => Sys2Proof.Machine.execIllegal cmd s

end Sys2Proof.Machine
end

