-- ==== Sys2Proof/Machine/Step.lean ====
section
/-!
DEFINITION. One step of the whole machine: the host's oldest move that is still to be made (R87, R119, R121). With none
pending a Reader is idle and holds its state (R118). DESIGN CHOICE (notes/assumptions/4.md), safe.
-/

namespace Sys2Proof.Machine

/-- One step. A command word is decoded and performed at the Reader it is presented to. -/
def step (s : State) : Host.Outcome State Fault Refusal :=
  match s.hostMoves with
  | [] => .next s
  | .command r cmd :: rest => exec (decode cmd) (s.present r rest)
  | .reset r :: rest => resetReader { s with hostMoves := rest } r
  | .boot bytes :: rest => bootBuffer { s with hostMoves := rest } bytes

/-- The state with one more command before all others: the word whose low `nbits` bits are those of `w`, for the Reader
at the port. -/
def State.withFetchWord (s : State) (nbits w : Nat) : State :=
  { s with hostMoves := .command s.port (BitVec.ofNat 32 (w % 2 ^ nbits)) :: s.hostMoves }

end Sys2Proof.Machine
end

