-- ==== Sys2Proof/Machine/Assembler.lean ====
section
/-!
DEFINITION. The assembly language of R64, tooling beside the machine: one command a line, the names READ and SEEK with
their aliases, the .word directive, numbers in three bases, comments. There is no pseudo-instruction (R65). A line is a
list of characters. DESIGN CHOICE where R64 is silent on spaces, letter case and blank lines
(notes/assumptions/14.md), safe: no statement about the machine rests on it.
-/

namespace Sys2Proof.Machine

/-- A line of assembly that holds a command (R64). -/
inductive AsmCommand where
  /-- `READ n`, or `readBits n`, or `readBits(n)`. -/
  | read (n : Nat)
  /-- `SEEK pos`, or `resetRead pos`, or `resetRead(pos)`. -/
  | seek (pos : Nat)
  /-- `.word w`. -/
  | word (w : Nat)
  deriving DecidableEq, Repr

/-- The word of a command, or a refusal where a number does not fit its field (R64). `READ 0` and `READ 9` to `READ 15`
are accepted: they encode, and fault when performed. -/
def assembleCommand : AsmCommand → Option Word
  | .read n => if n ≤ 15 then some (0x10000000#32 ||| BitVec.ofNat 32 n) else none
  | .seek pos => if pos ≤ 2 ^ 28 - 1 then some (0x20000000#32 ||| BitVec.ofNat 32 pos) else none
  | .word w => if w < 2 ^ 32 then some (BitVec.ofNat 32 w) else none

/-- A digit's value in a base up to 16. -/
def digitValue (base : Nat) (c : Char) : Option Nat :=
  let v :=
    if '0'.toNat ≤ c.toNat ∧ c.toNat ≤ '9'.toNat then some (c.toNat - '0'.toNat)
    else if 'a'.toNat ≤ c.toNat ∧ c.toNat ≤ 'f'.toNat then some (c.toNat - 'a'.toNat + 10)
    else if 'A'.toNat ≤ c.toNat ∧ c.toNat ≤ 'F'.toNat then some (c.toNat - 'A'.toNat + 10)
    else none
  match v with
  | some d => if d < base then some d else none
  | none => none

/-- The digits of a number, most significant first, added to the value `acc` already read (R10). -/
def digitsValue (base : Nat) : Nat → List Char → Option Nat
  | acc, [] => some acc
  | acc, c :: cs =>
    match digitValue base c with
    | some d => digitsValue base (acc * base + d) cs
    | none => none

/-- A number: decimal, `0x` hexadecimal or `0b` binary (R64), with at least one digit. -/
def parseNumber : List Char → Option Nat
  | [] => none
  | '0' :: 'x' :: c :: cs => digitsValue 16 0 (c :: cs)
  | '0' :: 'b' :: c :: cs => digitsValue 2 0 (c :: cs)
  | c :: cs => digitsValue 10 0 (c :: cs)

/-- A space or a tab. -/
def isBlank (c : Char) : Bool := c == ' ' || c == '\t'

/-- A line without its comment, which starts with `;` (R64), and without the blanks at its two ends. -/
def stripLine (line : List Char) : List Char :=
  (((line.takeWhile (· != ';')).dropWhile isBlank).reverse.dropWhile isBlank).reverse

/-- The number between parentheses, the call form of an alias. -/
def parseCallOperand (text : List Char) : Option Nat :=
  match text, text.reverse with
  | '(' :: rest, ')' :: _ => parseNumber (stripLine rest.dropLast)
  | _, _ => none

/-- The command that a name and the text after it make. Only the aliases have the call form. -/
def parseNamed (name operand : List Char) : Option AsmCommand :=
  if name = ['R', 'E', 'A', 'D'] then (parseNumber operand).map .read
  else if name = ['S', 'E', 'E', 'K'] then (parseNumber operand).map .seek
  else if name = ['.', 'w', 'o', 'r', 'd'] then (parseNumber operand).map .word
  else if name = ['r', 'e', 'a', 'd', 'B', 'i', 't', 's'] then
    ((parseCallOperand operand).or (parseNumber operand)).map .read
  else if name = ['r', 'e', 's', 'e', 't', 'R', 'e', 'a', 'd'] then
    ((parseCallOperand operand).or (parseNumber operand)).map .seek
  else none

/-- A line that holds a command. The name ends at a blank or at an opening parenthesis. -/
def parseCommand (line : List Char) : Option AsmCommand :=
  let text := stripLine line
  let endsName := fun c => isBlank c || c == '('
  parseNamed (text.takeWhile (!endsName ·)) ((text.dropWhile (!endsName ·)).dropWhile isBlank)

/-- The command words of a program, one a line; a line that holds only blanks or a comment gives none. A line that is no
command, or whose number does not fit, makes the assembler refuse. -/
def assemble : List (List Char) → Option (List Word)
  | [] => some []
  | line :: lines =>
    if stripLine line = [] then assemble lines
    else
      match (parseCommand line).bind assembleCommand, assemble lines with
      | some w, some ws => some (w :: ws)
      | _, _ => none

end Sys2Proof.Machine
end

