-- ==== Sys2Proof/Machine/Flags.lean ====
section
/-!
DEFINITION. The block has no flags or condition codes (R28). What it shows of its state stands here: the status outputs
(R63) and the binary form of a response (R62).
-/

namespace Sys2Proof.Machine

/-- The status outputs of a Reader (R31, R63). `readPos` and `writePos` are shown by none. -/
def Reader.status (rd : Reader) : StatusOutputs :=
  { faulted := rd.faulted, cause := rd.cause, faultCmd := rd.faultCmd, faultPos := rd.faultPos }

/-- `resp[9:8]`: 01 Data, 10 Ack, 11 Fault; 00 is never sent (R62). -/
def Response.kind : Response → BitVec 2
  | .data _ => 0b01
  | .ack => 0b10
  | .fault _ => 0b11

/-- `resp[7:0]`: the value for Data, 0 for Ack, the cause code for Fault (R62). -/
def Response.payload : Response → Byte
  | .data v => v
  | .ack => 0
  | .fault c => c.code.setWidth 8

/-- The 16-bit response word, with `resp[15:10] = 0` (R62). -/
def Response.word (r : Response) : RespWord := 0#6 ++ r.kind ++ r.payload

end Sys2Proof.Machine
end

