-- ==== Sys2Proof/Safety.lean ====
section
/-!
DEFINITION. The terms claims are stated in: the launch premises (R132), the invariants of a Reader and of the machine,
what is observed of a launch (R134), how a run ends (R133), and the exact state that a performed command leaves.
-/

namespace Sys2Proof.Machine

/-! ### What a fault record must say -/

/-- The condition under which R98 lets a command word raise a cause, for a Reader whose cursor is `p`. Codes 5 and 6 are
raised by no command (R72). -/
def causeCondition (nBytes : ByteCount) (p : Nat) (cmd : Word) : Cause → Prop
  | .illegalCommand => isIllegalWord cmd = true
  | .widthRange => ∃ w, decode cmd = .read w ∧ (w.toNat = 0 ∨ 9 ≤ w.toNat)
  | .readOverrun => ∃ w, decode cmd = .read w ∧ 1 ≤ w.toNat ∧ w.toNat ≤ 8 ∧ capacity nBytes < p + w.toNat
  | .seekRange => ∃ pos, decode cmd = .seek pos ∧ capacity nBytes < pos.toNat
  | .selectRange => False
  | .shiftRange => False

/-- The registers of a Reader that is not faulted hold no record (R23, R24, R25). -/
def Reader.noRecord (rd : Reader) : Prop := rd.cause = 0 ∧ rd.faultCmd = 0 ∧ rd.faultPos = 0

/-- The record of a faulted Reader is one that R98 and R103 allow: a cause code, a word that raises it at this cursor,
and the cursor itself, which the fault did not move (R25). -/
def Reader.trueRecord (nBytes : ByteCount) (rd : Reader) : Prop :=
  rd.faultPos = rd.readPos ∧ ∃ c, rd.cause = Cause.code c ∧ causeCondition nBytes rd.faultPos.toNat rd.faultCmd c

/-! ### Invariants -/

/-- The invariant of one Reader: the cursor within the buffer (R20), the write cursor at its reset value (R21), and a
fault record exactly when faulted (R22 to R25). -/
structure Reader.Inv (nBytes : ByteCount) (rd : Reader) : Prop where
  cursor   : rd.readPos.toNat ≤ capacity nBytes
  writePos : rd.writePos = 0
  clean    : rd.faulted = false → rd.noRecord
  record   : rd.faulted = true → rd.trueRecord nBytes

/-- The invariant of the machine: the buffer is in canonical form, the port is one of the Readers (so NUM_READERS ≥ 1,
R6), and every Reader meets its own. -/
structure State.Inv (s : State) : Prop where
  buffer  : Memory.wf s.nBytes.val s.buf = true
  port    : s.port < s.slots.length
  readers : ∀ sl ∈ s.slots, sl.reader.Inv s.nBytes

/-- What the responses say of FAULTED (R62, R103, R105): none is a Fault while the Reader is not faulted; once it is,
the last one is the fault that `CAUSE` holds, and no earlier one is a Fault. The responses are those recorded since the Reader's
last reset (notes/assumptions/6.md). -/
def Slot.responsesAgree (sl : Slot) : Prop :=
  if sl.reader.faulted then
    ∃ earlier c, sl.responses = earlier ++ [.fault c] ∧ Cause.code c = sl.reader.cause ∧ ∀ c', .fault c' ∉ earlier
  else ∀ c, .fault c ∉ sl.responses

/-- What the trace says of the responses of Reader `r` (R116): one event for each, in order, under the Reader's own
index, when TRACE_EN is true, and none when it is false. -/
def Slot.traceAgrees (traceEn : Bool) (r : Nat) (sl : Slot) : Prop :=
  if traceEn then sl.trace.map TraceEvent.response = sl.responses ∧ ∀ e ∈ sl.trace, e.r = r else sl.trace = []

/-- Outputs and registers agree in every Reader. -/
def State.OutputsInv (s : State) : Prop :=
  ∀ (r : Nat) (sl : Slot), s.slots[r]? = some sl → sl.responsesAgree ∧ sl.traceAgrees s.traceEn r

/-! ### Launches (R131 to R134) -/

/-- Whether a move is to Reader `r`: a command word presented to it, or its reset input. -/
def HostMove.isTo (r : Nat) : HostMove → Bool
  | .command r' _ => r' == r
  | .reset r' => r' == r
  | .boot _ => false

/-- The registers of RESET_CLEAN (R132): they are R32's. -/
def Reader.resetClean (rd : Reader) : Prop :=
  rd.readPos = 0 ∧ rd.writePos = 0 ∧ rd.faulted = false ∧ rd.cause = 0 ∧ rd.faultCmd = 0 ∧ rd.faultPos = 0

/-- WF_N (R132). It holds of every state, since `nBytes` has only the legal values. -/
def State.wfN (s : State) : Prop := s.nBytes.val ≤ 2 ^ 25 - 1

/-- BUF_STABLE (R132, R126): BUF has N bytes, one at each index below N and none at another; and it does not change,
since the host makes no move that gives a new buffer. The first part holds of every state; the second is the host's duty
(R124). -/
def State.bufStable (s : State) (moves : List HostMove) : Prop :=
  (∀ i, (∃ b, memRead s.nBytes s.buf i = .ok b) ↔ i < s.nBytes.val) ∧ ∀ bytes, .boot bytes ∉ moves

/-- SERIAL (R132, R127): what the host does to Reader `r` is one sequence, the command words `cmds` in their order. A move
is one step and ends with its response before the next move begins (R96), so no two of them overlap. Moves to other
Readers may stand between them (R48). -/
def serial (r : Nat) (moves : List HostMove) (cmds : List Word) : Prop :=
  moves.filter (HostMove.isTo r) = cmds.map (.command r)

/-- RESET_CLEAN (R132): before `cmd_1`, Reader `r` is there and its registers are R32's. -/
def State.resetClean (s : State) (r : Nat) : Prop := ∃ sl, s.slots[r]? = some sl ∧ sl.reader.resetClean

/-- The premises that every claim about a launch takes (R132): of the state before `cmd_1`, the Reader `r`, its command
words `cmds`, and the host's moves from there to the end of the run. -/
structure LaunchPremises (s : State) (r : Nat) (cmds : List Word) (moves : List HostMove) : Prop where
  /-- WF_N. -/
  wfN        : s.wfN
  /-- BUF_STABLE. -/
  bufStable  : s.bufStable moves
  /-- SERIAL. -/
  serial     : serial r moves cmds
  /-- RESET_CLEAN. -/
  resetClean : s.resetClean r

/-- A launch of Reader `r` from its beginning: its reset, then the host's moves (R131). -/
def launchMoves (r : Nat) (moves : List HostMove) : List HostMove := .reset r :: moves

/-- What is observed of a launch of a Reader (R134). -/
structure Observation where
  responses : List Response
  readPos   : Pos
  status    : StatusOutputs
  trace     : List TraceEvent
  deriving DecidableEq, Repr

/-- The observation a Reader's slot holds at the end of its run (R134). -/
def Slot.observe (sl : Slot) : Observation :=
  { responses := sl.responses, readPos := sl.reader.readPos, status := sl.reader.status, trace := sl.trace }

/-- How a run ends (R133). -/
inductive RunOutcome where
  /-- FAULTED = 0, with the responses and the final cursor. -/
  | good (responses : List Response) (readPos : Pos)
  /-- FAULTED = 1, with the fault record. -/
  | faulted (cause : BitVec 4) (faultCmd : Word) (faultPos : Pos)
  deriving DecidableEq, Repr

/-- The outcome of the run of a Reader (R133). -/
def Slot.outcome (sl : Slot) : RunOutcome :=
  if sl.reader.faulted then .faulted sl.reader.cause sl.reader.faultCmd sl.reader.faultPos
  else .good sl.responses sl.reader.readPos

/-- A safe state: no Reader has faulted. A faulted state is never a good final state (R105). -/
def State.Good (s : State) : Prop := ∀ sl ∈ s.slots, sl.reader.faulted = false

/-- The machine after `k` steps, or where it stopped (the host's own run of the machine, in the model's types). -/
def runFor : Nat → State → Host.Outcome State Fault Refusal
  | 0, s => .next s
  | k + 1, s =>
    match step s with
    | .next t => runFor k t
    | .fault f => .fault f
    | .refused why => .refused why

/-- The machine after it has made exactly the host's moves `moves`, one step each (R129). -/
def runMoves (s : State) (moves : List HostMove) : Host.Outcome State Fault Refusal :=
  runFor moves.length { s with hostMoves := moves }

/-! ### The host's own check -/

/-- The checks of R107 that a host makes before a command: the width and the end of a READ, the position of a SEEK. An
ILLEGAL word always faults (R124). -/
def hostCheck (nBytes : ByteCount) (p : Nat) : Instr → Prop
  | .read w => 1 ≤ w.toNat ∧ w.toNat ≤ 8 ∧ p + w.toNat ≤ capacity nBytes
  | .seek pos => pos.toNat ≤ capacity nBytes
  | .illegal _ => False

/-! ### What a performed command leaves -/

/-- The Reader at the port is `sl` and it accepts commands: it exists and is not faulted (R105, R111). This is the whole
condition under which a command is performed. -/
abbrev State.ready (s : State) (sl : Slot) : Prop := s.slots[s.port]? = some sl ∧ sl.reader.faulted = false

/-- `t` is `s` but for the Reader at the port, whose registers became `rd`, which gave exactly the one response `resp` to
the command word `cmd`, and which put out its trace event when TRACE_EN is true. -/
def Performed (s t : State) (sl : Slot) (cmd : Word) (rd : Reader) (resp : Response) : Prop :=
  let event : TraceEvent := ⟨s.port, cmd, sl.reader.readPos, resp, rd.readPos⟩
  let after : Slot := ⟨rd, sl.responses ++ [resp], sl.trace ++ if s.traceEn then [event] else []⟩
  t = { s with slots := s.slots.set s.port after }

/-- The registers after a fault (R103), written out: the cursors stay, the record is made. -/
def faultRecord (rd : Reader) (code : BitVec 4) (cmd : Word) : Reader :=
  { readPos := rd.readPos
    writePos := rd.writePos
    faulted := true
    cause := code
    faultCmd := cmd
    faultPos := rd.readPos }

/-- What no command changes outside the Reader at the port: the buffer, the parameters, the host's side, and every other
Reader with all its outputs. -/
structure OthersUnchanged (s t : State) : Prop where
  nBytes    : t.nBytes = s.nBytes
  buf       : t.buf = s.buf
  traceEn   : t.traceEn = s.traceEn
  port      : t.port = s.port
  hostMoves : t.hostMoves = s.hostMoves
  count     : t.slots.length = s.slots.length
  others    : ∀ r, r ≠ s.port → t.slots[r]? = s.slots[r]?

/-- The moves of a run that concern Reader `r`. -/
def HostMove.concerns (r : Nat) : HostMove → Bool
  | .command r' _ => r' == r
  | .reset r' => r' == r
  | .boot _ => true

/-- A move that names no Reader but one that exists. -/
def HostMove.namesReader (readers : Nat) : HostMove → Bool
  | .command r _ => decide (r < readers)
  | .reset r => decide (r < readers)
  | .boot _ => true

/-- A move to one of the Readers, within launches (no new buffer). -/
def HostMove.within (readers : Nat) : HostMove → Bool
  | .command r _ => decide (r < readers)
  | .reset r => decide (r < readers)
  | .boot _ => false

end Sys2Proof.Machine
end

