-- ==== Sys2Proof/Certificates/Slice0/Obligations.lean ====
section
/-!
DEFINITION. The statements for the provers, each from a rule of spec/ that its docstring names. Nothing is proved here.
`s.ready sl` says that the Reader at the port is `sl` and is not faulted; `Performed s t sl cmd rd resp` says the whole
next state `t`: only that Reader changed, its registers are `rd`, and it gave exactly the response `resp`. A claim about a
launch takes `LaunchPremises`, the four premises of R132 by name; the others hold from every state, in a launch or not.
-/

open Sys2Proof Sys2Proof.Machine

/-! ### Encoding -/

/-- R53, R54, R58, R60: no bit of an encoding is dropped, for any command at any operand. -/
def Obligations.DecodeOfEncode : Prop :=
  ∀ i : Instr, WellFormed i → decode (encode i) = i

/-- R58, R103: the word that a fault of the decoded command records is the very word that was presented. -/
def Obligations.EncodeOfDecode : Prop :=
  ∀ cmd : Word, encode (decode cmd) = cmd

/-- R58, with its three lines written on the number the word is, and its counts as ranges of words. -/
def Obligations.DecodeIsTheOpcodeMap : Prop :=
  ∀ cmd : Word,
    (cmd.toNat / 2 ^ 28 = 0x1 ∧ cmd.toNat / 2 ^ 4 % 2 ^ 24 = 0 →
      decode cmd = .read (BitVec.ofNat 4 (cmd.toNat % 2 ^ 4))) ∧
    (cmd.toNat / 2 ^ 28 = 0x2 → decode cmd = .seek (BitVec.ofNat 28 (cmd.toNat % 2 ^ 28))) ∧
    (¬(cmd.toNat / 2 ^ 28 = 0x1 ∧ cmd.toNat / 2 ^ 4 % 2 ^ 24 = 0) ∧ ¬cmd.toNat / 2 ^ 28 = 0x2 →
      decode cmd = .illegal cmd) ∧
    ((∃ w, decode cmd = .read w) ↔ 0x10000000 ≤ cmd.toNat ∧ cmd.toNat ≤ 0x1000000F) ∧
    ((∃ w, decode cmd = .read w ∧ 1 ≤ w.toNat ∧ w.toNat ≤ 8) ↔
      0x10000001 ≤ cmd.toNat ∧ cmd.toNat ≤ 0x10000008) ∧
    ((∃ pos, decode cmd = .seek pos) ↔ 0x20000000 ≤ cmd.toNat ∧ cmd.toNat ≤ 0x2FFFFFFF)

/-- R60's list of the ILLEGAL words (`isIllegalWord`) is exactly the set of words that decode as ILLEGAL: RZ is checked. -/
def Obligations.IllegalWordsAreThoseListed : Prop :=
  ∀ cmd : Word, decode cmd = .illegal cmd ↔ isIllegalWord cmd = true

/-- R66's words, each decoding to the command it stands for. -/
def Obligations.SampleWordsDecode : Prop :=
  decode 0x10000001 = .read 1 ∧ decode 0x10000004 = .read 4 ∧ decode 0x10000007 = .read 7 ∧
  decode 0x10000008 = .read 8 ∧ decode 0x10000000 = .read 0 ∧ decode 0x10000009 = .read 9 ∧
  decode 0x20000000 = .seek 0 ∧ decode 0x2000000C = .seek 12 ∧ decode 0x20000018 = .seek 24 ∧
  decode 0x2FFFFFFF = .seek 268435455 ∧ decode 0x00000000 = .illegal 0x00000000 ∧
  decode 0x30000000 = .illegal 0x30000000 ∧ decode 0x10000104 = .illegal 0x10000104

/-- R64: the assembler gives READ, SEEK and .word the words that decode to them, and refuses a number that does not fit
its field. (The refusal of a .word past 32 bits is the model's, notes/assumptions/14.md.) -/
def Obligations.AssembledCommandsDecode : Prop :=
  ∀ n : Nat,
    (n ≤ 15 → (assembleCommand (.read n)).map decode = some (.read (BitVec.ofNat 4 n))) ∧
    (15 < n → assembleCommand (.read n) = none) ∧
    (n ≤ 2 ^ 28 - 1 → (assembleCommand (.seek n)).map decode = some (.seek (BitVec.ofNat 28 n))) ∧
    (2 ^ 28 - 1 < n → assembleCommand (.seek n) = none) ∧
    (n < 2 ^ 32 → assembleCommand (.word n) = some (BitVec.ofNat 32 n)) ∧
    (2 ^ 32 ≤ n → assembleCommand (.word n) = none)

/-! ### The bit primitives -/

/-- R68: SELECT keeps exactly the bits of the inclusive range, and raises outside its precondition. -/
def Obligations.SelectKeepsTheRange : Prop :=
  ∀ (v : Byte) (start stop : Nat),
    (start ≤ stop ∧ stop ≤ 7 →
      ∃ r, select v start stop = .ok r ∧
        ∀ k, r.getLsbD k = (v.getLsbD k && decide (start ≤ k ∧ k ≤ stop))) ∧
    (stop < start ∨ 7 < stop → select v start stop = .error (.violation (.selectRange start stop)))

/-- R69: the mask by its formula, its bits and its closed form. -/
def Obligations.SelectMaskBits : Prop :=
  ∀ start stop : Nat, start ≤ stop → stop ≤ 7 →
    (selMask start stop).toNat = ((0xFF <<< start) % 256) &&& (0xFF >>> (7 - stop)) ∧
    (∀ k, (selMask start stop).getLsbD k = decide (start ≤ k ∧ k ≤ stop)) ∧
    (selMask start stop).toNat = (2 ^ (stop + 1) - 1) - (2 ^ start - 1)

/-- R70: SHIFT is `(v >> start) << offset` kept to 8 bits, and raises outside its precondition. -/
def Obligations.ShiftTruncates : Prop :=
  ∀ (v : Byte) (start offset : Nat),
    (start ≤ 7 ∧ offset ≤ 8 →
      ∃ r, shift v start offset = .ok r ∧ r.toNat = ((v.toNat >>> start) <<< offset) % 256) ∧
    (7 < start ∨ 8 < offset → shift v start offset = .error (.violation (.shiftRange start offset)))

/-! ### The field extractor -/

/-- R74: the two preconditions, in their order and whatever the buffer holds; with both met EXTRACT gives a pair. -/
def Obligations.ExtractPreconditions : Prop :=
  ∀ (nBytes : ByteCount) (buf : Memory) (p n : Nat),
    (n = 0 ∨ 9 ≤ n → extract nBytes buf p n = .error (.violation (.widthRange n))) ∧
    (1 ≤ n → n ≤ 8 → 8 * nBytes.val < p + n →
      extract nBytes buf p n = .error (.violation (.readOverrun p n))) ∧
    (1 ≤ n → n ≤ 8 → p + n ≤ 8 * nBytes.val → ∃ v, extract nBytes buf p n = .ok (v, p + n))

/-- R36 and R76: what EXTRACT computes is the little-endian packing of the buffer's bits `p` to `p + n - 1`. -/
def Obligations.ExtractPacksLittleEndian : Prop :=
  ∀ (nBytes : ByteCount) (buf : Memory) (p n : Nat), 1 ≤ n → n ≤ 8 → p + n ≤ 8 * nBytes.val →
    ∃ v, extract nBytes buf p n = .ok (v, p + n) ∧
      v.toNat = packedField buf p n ∧ v.toNat < 2 ^ n ∧
      (∀ j, j < n → (v.getLsbD j).toNat = bitAt buf (p + j)) ∧
      (∀ j, n ≤ j → v.getLsbD j = false)

/-- R77: `twoBytes` says that the field reaches a second byte, which is then the next one. -/
def Obligations.TwoBytesMeansNextByte : Prop :=
  ∀ p n : Nat, 1 ≤ n → n ≤ 8 →
    (twoBytes p n = true ↔ byteLast p n ≠ byteFirst p) ∧
    (twoBytes p n = true → byteLast p n = byteFirst p + 1)

/-- R78: the count invariants. They hold for every position, so also for each that passes R74. -/
def Obligations.CountInvariants : Prop :=
  ∀ p n : Nat, 1 ≤ n → n ≤ 8 →
    1 ≤ countFirst p n ∧ countFirst p n ≤ 8 ∧
    countFirst p n + countSecond p n = n ∧
    countSecond p n = max (n - countFirst p n) 0 ∧
    (countSecond p n = 0 ↔ twoBytes p n = false) ∧
    (twoBytes p n = true →
      countFirst p n = 8 - localStart p ∧ countSecond p n = localEnd p n + 1 ∧
      1 ≤ localStart p ∧ localStart p ≤ 7 ∧ countFirst p n ≤ 7) ∧
    (∀ nBytes : ByteCount, p + n ≤ 8 * nBytes.val → byteFirst p < nBytes.val ∧ byteLast p n < nBytes.val)

/-- R83: EXTRACT never asks for a byte at index N or above; with N = 0 it reads none, since nothing passes R74. -/
def Obligations.ExtractStaysInsideTheBuffer : Prop :=
  ∀ (nBytes : ByteCount) (buf : Memory) (p n : Nat),
    (1 ≤ n → n ≤ 8 → p + n ≤ 8 * nBytes.val → byteFirst p < nBytes.val ∧ byteLast p n < nBytes.val) ∧
    (nBytes.val = 0 → ¬(1 ≤ n ∧ n ≤ 8 ∧ p + n ≤ 8 * nBytes.val)) ∧
    ∀ f, extract nBytes buf p n ≠ .error (.fault f)

/-- R72: EXTRACT's calls of SELECT and SHIFT meet their preconditions, so EXTRACT raises neither range, and no command
answers one. -/
def Obligations.PrimitiveFaultsUnreachable : Prop :=
  (∀ p n : Nat, 1 ≤ n → n ≤ 8 →
    localStart p ≤ 7 ∧ localEnd p n ≤ 7 ∧ countFirst p n ≤ 8 ∧
    (twoBytes p n = false → localStart p ≤ localEnd p n)) ∧
  (∀ (nBytes : ByteCount) (buf : Memory) (p n a b : Nat),
    extract nBytes buf p n ≠ .error (.violation (.selectRange a b)) ∧
    extract nBytes buf p n ≠ .error (.violation (.shiftRange a b))) ∧
  (∀ (i : Instr) (s t : State) (sl sl' : Slot) (resp : Response),
    s.ready sl → exec i s = .next t → t.slots[s.port]? = some sl' → sl'.responses = sl.responses ++ [resp] →
    resp ≠ .fault .selectRange ∧ resp ≠ .fault .shiftRange)

/-- R79: where the two parts of a field lie in the result. -/
def Obligations.PartsDoNotOverlap : Prop :=
  ∀ (nBytes : ByteCount) (buf : Memory) (p n : Nat), 1 ≤ n → n ≤ 8 → p + n ≤ 8 * nBytes.val →
    ∃ f g, firstPart nBytes buf p n = .ok f ∧ secondPart nBytes buf p n = .ok g ∧
      f.toNat < 2 ^ countFirst p n ∧
      (∀ j, j < countFirst p n → (f.getLsbD j).toNat = bitAt buf (p + j)) ∧
      (twoBytes p n = true →
        (∀ j, countFirst p n ≤ j → j < n →
          (g.getLsbD j).toNat = bitAt buf (8 * byteLast p n + (j - countFirst p n))) ∧
        (∀ j, j < countFirst p n ∨ n ≤ j → g.getLsbD j = false)) ∧
      f &&& g = 0 ∧ (f ||| g).toNat = f.toNat + g.toNat ∧
      countFirst p n + countSecond p n = n

/-- R80: an aligned read of 8 bits gives the byte itself. -/
def Obligations.FullBytePassthrough : Prop :=
  ∀ (nBytes : ByteCount) (buf : Memory) (p : Nat), p % 8 = 0 → p + 8 ≤ 8 * nBytes.val →
    countFirst p 8 = 8 ∧ twoBytes p 8 = false ∧
    ∃ b, memRead nBytes buf (p / 8) = .ok b ∧ extract nBytes buf p 8 = .ok (b, p + 8)

/-- R81: the closed forms of a one-byte and of a two-byte field. -/
def Obligations.ExtractClosedForm : Prop :=
  ∀ (nBytes : ByteCount) (buf : Memory) (p n : Nat), 1 ≤ n → n ≤ 8 → p + n ≤ 8 * nBytes.val →
    ∃ v, extract nBytes buf p n = .ok (v, p + n) ∧
      (twoBytes p n = false →
        v.toNat = ((buf.read (byteFirst p)).toNat >>> localStart p) &&& (2 ^ n - 1)) ∧
      (twoBytes p n = true →
        v.toNat = ((buf.read (byteFirst p)).toNat >>> localStart p) |||
          (((buf.read (byteFirst p + 1)).toNat &&& (2 ^ countSecond p n - 1)) <<< countFirst p n))

/-- R84: two adjacent reads that fit in 8 bits give what one read of both gives, for crossing fields too. -/
def Obligations.AdjacentReadsCompose : Prop :=
  ∀ (nBytes : ByteCount) (buf : Memory) (p n1 n2 : Nat) (v1 v2 : Byte),
    n1 + n2 ≤ 8 → p + n1 + n2 ≤ 8 * nBytes.val →
    extract nBytes buf p n1 = .ok (v1, p + n1) →
    extract nBytes buf (p + n1) n2 = .ok (v2, p + n1 + n2) →
    extract nBytes buf p (n1 + n2) = .ok (v1 ||| (v2 <<< n1), p + n1 + n2)

/-- R85: the last position that a width fits at, and the next one. -/
def Obligations.ReadBoundary : Prop :=
  ∀ (nBytes : ByteCount) (buf : Memory) (n : Nat), 1 ≤ n → n ≤ 8 → n ≤ 8 * nBytes.val →
    (∃ v, extract nBytes buf (8 * nBytes.val - n) n = .ok (v, 8 * nBytes.val)) ∧
    extract nBytes buf (8 * nBytes.val - n + 1) n =
      .error (.violation (.readOverrun (8 * nBytes.val - n + 1) n))

/-! ### The commands -/

/-- R88: READ completes for every legal width that fits, advancing the cursor by exactly `n` and answering with the
packed field; it takes WIDTH_RANGE for an illegal width, and READ_OVERRUN for a legal one that does not fit, its cursor
kept. -/
def Obligations.ReadOutcome : Prop :=
  ∀ (s : State) (sl : Slot) (w : BitVec 4), s.ready sl →
    (1 ≤ w.toNat → w.toNat ≤ 8 → sl.reader.readPos.toNat + w.toNat ≤ 8 * s.nBytes.val →
      ∃ t v pos', exec (.read w) s = .next t ∧
        Performed s t sl (encode (.read w)) { sl.reader with readPos := pos' } (.data v) ∧
        pos'.toNat = sl.reader.readPos.toNat + w.toNat ∧
        v.toNat = packedField s.buf sl.reader.readPos.toNat w.toNat ∧ v.toNat < 2 ^ w.toNat) ∧
    (w.toNat = 0 ∨ 9 ≤ w.toNat →
      ∃ t, exec (.read w) s = .next t ∧
        Performed s t sl (encode (.read w)) (faultRecord sl.reader 2 (encode (.read w))) (.fault .widthRange)) ∧
    (1 ≤ w.toNat → w.toNat ≤ 8 → 8 * s.nBytes.val < sl.reader.readPos.toNat + w.toNat →
      ∃ t, exec (.read w) s = .next t ∧
        Performed s t sl (encode (.read w)) (faultRecord sl.reader 3 (encode (.read w))) (.fault .readOverrun))

/-- R91: SEEK completes for every position up to and including CAP, wherever the cursor is, and takes SEEK_RANGE past
it. -/
def Obligations.SeekOutcome : Prop :=
  ∀ (s : State) (sl : Slot) (pos : BitVec 28), s.ready sl →
    (pos.toNat ≤ 8 * s.nBytes.val →
      ∃ t, exec (.seek pos) s = .next t ∧
        Performed s t sl (encode (.seek pos)) { sl.reader with readPos := pos } .ack) ∧
    (8 * s.nBytes.val < pos.toNat →
      ∃ t, exec (.seek pos) s = .next t ∧
        Performed s t sl (encode (.seek pos)) (faultRecord sl.reader 4 (encode (.seek pos))) (.fault .seekRange))

/-- R95: an ILLEGAL word completes by taking ILLEGAL_COMMAND, always; and the words of R60 are the ones that decode to
it. -/
def Obligations.IllegalOutcome : Prop :=
  ∀ (s : State) (sl : Slot) (cmd : Word), s.ready sl →
    (∃ t, exec (.illegal cmd) s = .next t ∧
      Performed s t sl cmd (faultRecord sl.reader 1 cmd) (.fault .illegalCommand)) ∧
    (isIllegalWord cmd = true → decode cmd = .illegal cmd)

/-- R103: whatever command raises a fault and wherever, the entry is the one of the rule: record, FAULTED, one response,
the cursors not written; and the status outputs show it (R63). -/
def Obligations.FaultEntryRecords : Prop :=
  ∀ (i : Instr) (s t : State) (sl sl' : Slot) (c : Cause),
    s.ready sl → exec i s = .next t → t.slots[s.port]? = some sl' →
    sl'.responses = sl.responses ++ [.fault c] →
    Performed s t sl (encode i) (faultRecord sl.reader c.code (encode i)) (.fault c) ∧
    sl'.reader.status = { faulted := true, cause := c.code, faultCmd := encode i, faultPos := sl.reader.readPos }

/-- R101: of the conditions that hold, the one reported: ILLEGAL_COMMAND by decoding, then WIDTH_RANGE, then
READ_OVERRUN; SEEK has only SEEK_RANGE. Where none holds the response is no Fault. -/
def Obligations.FaultPriority : Prop :=
  ∀ (s : State) (sl : Slot) (cmd : Word), s.ready sl →
    ∃ t sl' resp, exec (decode cmd) s = .next t ∧ t.slots[s.port]? = some sl' ∧
      sl'.responses = sl.responses ++ [resp] ∧
      if isIllegalWord cmd = true then resp = .fault .illegalCommand
      else
        (∀ w, decode cmd = .read w →
          if w.toNat = 0 ∨ 9 ≤ w.toNat then resp = .fault .widthRange
          else if 8 * s.nBytes.val < sl.reader.readPos.toNat + w.toNat then resp = .fault .readOverrun
          else ∀ c, resp ≠ .fault c) ∧
        (∀ pos, decode cmd = .seek pos →
          if 8 * s.nBytes.val < pos.toNat then resp = .fault .seekRange else ∀ c, resp ≠ .fault c)

/-- R107: the host's checks before a command are exact: the command faults if and only if they do not hold. -/
def Obligations.HostChecksDecideFaults : Prop :=
  ∀ (i : Instr) (s : State) (sl : Slot), s.ready sl →
    ∃ t sl', exec i s = .next t ∧ t.slots[s.port]? = some sl' ∧
      (sl'.reader.faulted = false ↔ hostCheck s.nBytes sl.reader.readPos.toNat i)

/-- R62: every performed command gives exactly one response, of a kind its command can give; and the response word has
the stated fields, with kind 00 never sent. -/
def Obligations.OneResponsePerCommand : Prop :=
  (∀ (i : Instr) (s : State) (sl : Slot), s.ready sl →
    ∃ t sl' resp, exec i s = .next t ∧ t.slots[s.port]? = some sl' ∧ sl'.responses = sl.responses ++ [resp] ∧
      match resp with
      | .data _ => (∃ w, i = .read w) ∧ sl'.reader.faulted = false
      | .ack => (∃ pos, i = .seek pos) ∧ sl'.reader.faulted = false
      | .fault c => sl'.reader.faulted = true ∧ sl'.reader.cause = c.code) ∧
  (∀ resp : Response,
    resp.word.toNat / 2 ^ 10 = 0 ∧ resp.word.toNat / 2 ^ 8 % 4 ≠ 0 ∧
    match resp with
    | .data v => resp.word.toNat / 2 ^ 8 % 4 = 0b01 ∧ resp.word.toNat % 2 ^ 8 = v.toNat
    | .ack => resp.word.toNat / 2 ^ 8 % 4 = 0b10 ∧ resp.word.toNat % 2 ^ 8 = 0
    | .fault c => resp.word.toNat / 2 ^ 8 % 4 = 0b11 ∧ resp.word.toNat % 2 ^ 8 = c.code.toNat)

/-- R105: a faulted Reader performs no command: no step, no response, no state change. The status outputs show the fault,
and the state is never a good final one. -/
def Obligations.FaultedReaderPerformsNothing : Prop :=
  ∀ (i : Instr) (s : State) (sl : Slot), s.slots[s.port]? = some sl → sl.reader.faulted = true →
    exec i s = .next s ∧ sl.reader.status.faulted = true ∧ sl.reader.status.cause = sl.reader.cause ∧ ¬s.Good

/-- What the model does with the word that a faulted Reader does not accept (notes/assumptions/5.md): the host's move is
used up, and nothing else changes but the port. -/
def Obligations.UnacceptedWordIsDropped : Prop :=
  ∀ (s : State) (sl : Slot) (r : Nat) (cmd : Word) (rest : List HostMove),
    s.hostMoves = .command r cmd :: rest → s.slots[r]? = some sl → sl.reader.faulted = true →
    step s = .next { s with port := r, hostMoves := rest }

/-- R106: a faulted Reader, its record and its outputs stay as they are under every step but its own reset (which a new
launch over a new buffer makes too, R122). -/
def Obligations.FaultStaysUntilReset : Prop :=
  ∀ (s t : State) (r : Nat) (sl : Slot), s.slots[r]? = some sl → sl.reader.faulted = true → step s = .next t →
    (∀ rest, s.hostMoves ≠ .reset r :: rest) → (∀ bytes rest, s.hostMoves ≠ .boot bytes :: rest) →
    t.slots[r]? = some sl

/-- R44: a READ depends on the buffer, the cursor and the width alone: two of them at the same position, in whatever
states and of whichever Readers, give the same response; and neither changes a byte. -/
def Obligations.ReadsAreIdempotent : Prop :=
  ∀ (s s' : State) (sl sl' : Slot) (w : BitVec 4), s.ready sl → s'.ready sl' →
    s'.nBytes = s.nBytes → s'.buf = s.buf → sl'.reader.readPos = sl.reader.readPos →
    ∃ t t' u u' resp, exec (.read w) s = .next t ∧ exec (.read w) s' = .next t' ∧
      t.slots[s.port]? = some u ∧ t'.slots[s'.port]? = some u' ∧
      u.responses = sl.responses ++ [resp] ∧ u'.responses = sl'.responses ++ [resp] ∧
      ∀ k, memRead t.nBytes t.buf k = memRead s.nBytes s.buf k

/-- R7: with N = 0 every READ faults, and SEEK succeeds at position 0 only. -/
def Obligations.EmptyBufferAllowsOnlySeekZero : Prop :=
  ∀ (s : State) (sl : Slot), s.ready sl → s.nBytes.val = 0 →
    (∀ w, ∃ t c, exec (.read w) s = .next t ∧ (c = .readOverrun ∨ c = .widthRange) ∧
      Performed s t sl (encode (.read w)) (faultRecord sl.reader (Cause.code c) (encode (.read w))) (.fault c)) ∧
    (∀ pos, ∃ t sl', exec (.seek pos) s = .next t ∧ t.slots[s.port]? = some sl' ∧
      (sl'.responses = sl.responses ++ [.ack] ↔ pos = 0))

/-! ### Frames -/

/-- The frame of READ, SEEK and ILLEGAL (R42, R43, R48, R94, R104): the buffer byte by byte, the parameters, every other
Reader and the host's side are unchanged; of the Reader itself `writePos` is; a command that did not fault leaves the
fault registers, and one that did leaves the cursor. Of the outputs, at most one response and one event are added. -/
def Obligations.CommandFrame : Prop :=
  ∀ (i : Instr) (s t : State) (sl : Slot), s.slots[s.port]? = some sl → exec i s = .next t →
    OthersUnchanged s t ∧ (∀ k, memRead t.nBytes t.buf k = memRead s.nBytes s.buf k) ∧
    ∃ sl', t.slots[s.port]? = some sl' ∧ sl'.reader.writePos = sl.reader.writePos ∧
      (sl'.reader.faulted = sl.reader.faulted →
        sl'.reader = { sl.reader with readPos := sl'.reader.readPos }) ∧
      (sl'.reader.faulted = true → sl'.reader.readPos = sl.reader.readPos) ∧
      sl.responses <+: sl'.responses ∧ sl'.responses.length ≤ sl.responses.length + 1 ∧
      sl.trace <+: sl'.trace ∧ sl'.trace.length ≤ sl.trace.length + 1

/-- R94: which commands change which registers, and that the cursor stays within the buffer. -/
def Obligations.OnlyReadAndSeekMoveTheCursor : Prop :=
  ∀ (i : Instr) (s t : State) (sl : Slot), s.slots[s.port]? = some sl → exec i s = .next t →
    t.buf = s.buf ∧ t.nBytes = s.nBytes ∧
    ∃ sl', t.slots[s.port]? = some sl' ∧ sl'.reader.writePos = sl.reader.writePos ∧
      (sl'.reader.readPos ≠ sl.reader.readPos → (∃ w, i = .read w) ∨ ∃ pos, i = .seek pos) ∧
      (sl.reader.readPos.toNat ≤ 8 * s.nBytes.val → sl'.reader.readPos.toNat ≤ 8 * t.nBytes.val)

/-- R20: the only writers of `readPos` over a whole step, each with the value it writes: a READ that succeeds, a SEEK
that succeeds, and reset (which a new buffer makes too). -/
def Obligations.CursorWriters : Prop :=
  ∀ (s t : State) (r : Nat) (sl sl' : Slot), step s = .next t → s.slots[r]? = some sl → t.slots[r]? = some sl' →
    sl'.reader.readPos ≠ sl.reader.readPos →
    (∃ cmd rest w, s.hostMoves = .command r cmd :: rest ∧ decode cmd = .read w ∧
      sl'.reader.readPos.toNat = sl.reader.readPos.toNat + w.toNat ∧ sl'.reader.faulted = false) ∨
    (∃ cmd rest pos, s.hostMoves = .command r cmd :: rest ∧ decode cmd = .seek pos ∧
      sl'.reader.readPos = pos ∧ sl'.reader.faulted = false) ∨
    (∃ rest, s.hostMoves = .reset r :: rest ∧ sl'.reader.readPos = 0) ∨
    (∃ bytes rest, s.hostMoves = .boot bytes :: rest ∧ sl'.reader.readPos = 0)

/-- R116: with TRACE_EN each performed command emits exactly the stated event, without it none; a command that is not
accepted emits none; and no register and no response depends on TRACE_EN. -/
def Obligations.TraceObservesOnly : Prop :=
  ∀ (i : Instr) (s : State) (sl : Slot), s.slots[s.port]? = some sl →
    ∃ t t' sl' sl'', exec i { s with traceEn := true } = .next t ∧ exec i { s with traceEn := false } = .next t' ∧
      t.slots[s.port]? = some sl' ∧ t'.slots[s.port]? = some sl'' ∧
      sl'.reader = sl''.reader ∧ sl'.responses = sl''.responses ∧ sl''.trace = sl.trace ∧
      (sl.reader.faulted = true → sl'.trace = sl.trace) ∧
      (sl.reader.faulted = false → ∃ resp, sl'.responses = sl.responses ++ [resp] ∧
        sl'.trace = sl.trace ++
          [{ r := s.port, cmd := encode i, pBefore := sl.reader.readPos, response := resp,
             readPosAfter := sl'.reader.readPos }])

/-! ### The machine -/

/-- R87: a step at a command word is exec of the decoded command, at the Reader the word is presented to and with the
host's move used up. -/
def Obligations.StepRunsTheDecodedCommand : Prop :=
  ∀ (s : State) (r : Nat) (cmd : Word) (rest : List HostMove) (i : Instr),
    s.hostMoves = .command r cmd :: rest → decode cmd = i → WellFormed i →
    step s = exec i { s with port := r, hostMoves := rest }

/-- R118: with no move of the host pending the machine holds its state (that a step then answers it unchanged is the
model's, notes/assumptions/4.md). -/
def Obligations.IdleHoldsTheState : Prop :=
  ∀ s : State, s.hostMoves = [] → step s = .next s

/-- R129 at a Reader that is not faulted: every command completes in one step, so `k` accepted commands are `k` steps, and
a Reader not faulted at their end gave `k` responses. That exec and a step answer a next state at a faulted Reader too,
where R105 gives no step, is the model's choice (notes/assumptions/5.md); so the `k` steps for `k` words, of which some may
not be accepted, are the model's count. -/
def Obligations.EveryCommandCompletes : Prop :=
  (∀ (i : Instr) (s : State), s.port < s.slots.length → ∃ t, exec i s = .next t) ∧
  (∀ (s : State) (r : Nat) (sl : Slot) (cmds : List Word), s.slots[r]? = some sl →
    ∃ t sl', runMoves s (cmds.map (.command r)) = .next t ∧ t.hostMoves = [] ∧ t.slots[r]? = some sl' ∧
      (sl'.reader.faulted = false → sl'.responses.length = sl.responses.length + cmds.length))

/-- The model's answer where the host presents a command at an index that names no Reader
(notes/assumptions/8.md): the one way a command is refused. -/
def Obligations.RefusedOnlyWithoutReader : Prop :=
  ∀ (i : Instr) (s : State) (why : Refusal),
    exec i s = .refused why ↔ s.slots.length ≤ s.port ∧ why = .noSuchReader s.port

/-- The stops of a step, all the model's (notes/assumptions/8.md, 9.md, 10.md): it never faults (R83), and it refuses
exactly a move to a Reader that does not exist and a buffer longer than R6 allows. -/
def Obligations.StepStopsOnlyOnHostErrors : Prop :=
  ∀ s : State, (∀ f, step s ≠ .fault f) ∧
    ∀ why, step s = .refused why ↔
      (∃ r cmd rest, s.hostMoves = .command r cmd :: rest ∧ s.slots.length ≤ r ∧ why = .noSuchReader r) ∨
      (∃ r rest, s.hostMoves = .reset r :: rest ∧ s.slots.length ≤ r ∧ why = .noSuchReader r) ∨
      (∃ bytes rest, s.hostMoves = .boot bytes :: rest ∧ 2 ^ 25 ≤ bytes.length ∧
        why = .bufferTooLong bytes.length)

/-- R32: reset leaves the stated values in every register, at State.reset and after the reset input, and changes neither
BUF nor N. -/
def Obligations.ResetValues : Prop :=
  (∀ sl ∈ State.reset.slots, sl.reader.resetClean) ∧
  (∀ (s : State) (r : Nat) (rest : List HostMove), s.hostMoves = .reset r :: rest → r < s.slots.length →
    ∃ t sl', step s = .next t ∧ t.slots[r]? = some sl' ∧ sl'.reader.resetClean ∧
      t.buf = s.buf ∧ t.nBytes = s.nBytes)

/-- R119: reset of one Reader changes no other, whether or not it was faulted. That its outputs begin anew with the
launch is the model's (notes/assumptions/6.md). -/
def Obligations.ResetTouchesOneReader : Prop :=
  ∀ (s : State) (r : Nat) (rest : List HostMove), s.hostMoves = .reset r :: rest → r < s.slots.length →
    ∃ t, step s = .next t ∧ t.slots[r]? = some { reader := Reader.reset, responses := [], trace := [] } ∧
      (∀ r', r' ≠ r → t.slots[r']? = s.slots[r']?) ∧ t.slots.length = s.slots.length ∧
      t.traceEn = s.traceEn ∧ t.port = s.port ∧ t.hostMoves = rest

/-- R121, R131, R132: the reset that begins a launch establishes the premises of its claims, given the host's two duties
(the buffer is kept, the commands are serialised), for any existing Reader in any state. -/
def Obligations.ResetEstablishesLaunchPremises : Prop :=
  ∀ (s : State) (r : Nat) (cmds : List Word) (moves : List HostMove), r < s.slots.length →
    s.bufStable moves → serial r moves cmds →
    ∃ t, step { s with hostMoves := launchMoves r moves } = .next t ∧ t.hostMoves = moves ∧
      LaunchPremises t r cmds moves

/-- R18, R126, R132: through a launch, up to every point of it, N and every byte of the buffer stay as they were, whatever
the host presents to this Reader and to others. -/
def Obligations.BufferStableThroughALaunch : Prop :=
  ∀ (s : State) (r : Nat) (cmds : List Word) (before after : List HostMove),
    LaunchPremises s r cmds (before ++ after) →
    (∀ m ∈ before ++ after, m.namesReader s.slots.length = true) →
    ∃ t, runMoves s before = .next t ∧ t.nBytes = s.nBytes ∧ t.buf = s.buf ∧
      ∀ i, memRead t.nBytes t.buf i = memRead s.nBytes s.buf i

/-- R120, R132: after the reset that begins a launch, from whatever state, the Reader accepts commands at once; and if the
first is a READ it reads from global bit 0, whatever the host does to other Readers in between. The cursor after it is
stated for a launch of that one command. (That the recorded responses begin with it is the model's,
notes/assumptions/6.md.) -/
def Obligations.FirstReadStartsAtBitZero : Prop :=
  ∀ (s t : State) (r : Nat) (cmd : Word) (cmds : List Word) (moves : List HostMove) (w : BitVec 4),
    step { s with hostMoves := launchMoves r moves } = .next t → LaunchPremises t r (cmd :: cmds) moves →
    (∀ m ∈ moves, m.namesReader t.slots.length = true) → decode cmd = .read w →
    1 ≤ w.toNat → w.toNat ≤ 8 → w.toNat ≤ 8 * s.nBytes.val →
    ∃ u sl v rest, runMoves s (launchMoves r moves) = .next u ∧ u.slots[r]? = some sl ∧
      sl.responses = .data v :: rest ∧ v.toNat = packedField s.buf 0 w.toNat ∧
      (cmds = [] → rest = [] ∧ sl.reader.readPos.toNat = w.toNat ∧ sl.reader.faulted = false)

/-- R121, R122: a new buffer of at most `2^25 - 1` bytes: N and every byte of BUF are the host's, and every Reader is
reset over it. (That this is one move is the model's, notes/assumptions/9.md.) -/
def Obligations.BootInstallsTheBuffer : Prop :=
  ∀ (s : State) (bytes : List Byte) (rest : List HostMove), s.hostMoves = .boot bytes :: rest →
    bytes.length ≤ 2 ^ 25 - 1 →
    ∃ t, step s = .next t ∧ t.nBytes.val = bytes.length ∧ Memory.wf t.nBytes.val t.buf = true ∧
      (∀ (k : Nat) (h : k < bytes.length), memRead t.nBytes t.buf k = .ok bytes[k]) ∧
      t.slots.length = s.slots.length ∧ (∀ sl ∈ t.slots, sl.reader.resetClean) ∧ t.hostMoves = rest

/-- R48: a Reader's responses, trace and final registers depend on BUF, N and its own sequence of words and resets
alone: not on the interleaving, and not on what the other Readers are or hold. -/
def Obligations.InterleavingDoesNotMatter : Prop :=
  ∀ (s s' : State) (r : Nat) (moves : List HostMove),
    s'.nBytes = s.nBytes → s'.buf = s.buf → s'.traceEn = s.traceEn →
    r < s.slots.length → s'.slots[r]? = s.slots[r]? →
    (∀ m ∈ moves, m.within s.slots.length = true) →
    ∃ t t', runMoves s moves = .next t ∧ runMoves s' (moves.filter (HostMove.concerns r)) = .next t' ∧
      t'.slots[r]? = t.slots[r]?

/-- R104, R105, R133: a run ends at its first fault: whatever words follow, every Reader and every output is as the
fault left it. -/
def Obligations.FaultEndsTheRun : Prop :=
  ∀ (s : State) (r : Nat) (before after : List Word), r < s.slots.length →
    ∃ t u, runMoves s (before.map (.command r)) = .next t ∧
      runMoves s ((before ++ after).map (.command r)) = .next u ∧
      ((∃ sl, t.slots[r]? = some sl ∧ sl.reader.faulted = true) → u.slots = t.slots)

/-- R131 to R134: under the premises of R132 a launch (a reset, from whatever state, then command words, with moves to
other Readers between them) comes to one of two ends. Good: every word was answered, none with a Fault. Faulted: the words
up to the first violation were answered, that one with its Fault, which the record names; no later word was. (That the
recorded responses are those of this launch alone is the model's, notes/assumptions/6.md.) -/
def Obligations.LaunchEndsGoodOrFaulted : Prop :=
  ∀ (s t : State) (r : Nat) (cmds : List Word) (moves : List HostMove),
    step { s with hostMoves := launchMoves r moves } = .next t → LaunchPremises t r cmds moves →
    (∀ m ∈ moves, m.namesReader t.slots.length = true) →
    ∃ u sl, runMoves s (launchMoves r moves) = .next u ∧ u.slots[r]? = some sl ∧
      ((sl.outcome = .good sl.responses sl.reader.readPos ∧ sl.responses.length = cmds.length ∧
          ∀ c, .fault c ∉ sl.responses) ∨
       (∃ (earlier : List Response) (c : Cause) (cmd : Word), sl.responses = earlier ++ [.fault c] ∧
          (∀ c', .fault c' ∉ earlier) ∧ cmds[earlier.length]? = some cmd ∧
          sl.outcome = .faulted c.code cmd sl.reader.readPos))

/-- R125: a field wider than 8 bits, composed by the host from two READs. -/
def Obligations.WideFieldFromTwoReads : Prop :=
  ∀ (s : State) (r : Nat) (sl : Slot) (c1 c2 : Word) (w1 w2 : BitVec 4),
    s.slots[r]? = some sl → sl.reader.faulted = false → decode c1 = .read w1 → decode c2 = .read w2 →
    1 ≤ w1.toNat → w1.toNat ≤ 8 → 1 ≤ w2.toNat → w2.toNat ≤ 8 →
    sl.reader.readPos.toNat + w1.toNat + w2.toNat ≤ 8 * s.nBytes.val →
    ∃ t sl' v1 v2, runMoves s [.command r c1, .command r c2] = .next t ∧ t.slots[r]? = some sl' ∧
      sl'.responses = sl.responses ++ [.data v1, .data v2] ∧
      v1.toNat ||| (v2.toNat <<< w1.toNat) =
        packedField s.buf sl.reader.readPos.toNat (w1.toNat + w2.toNat)

/-! ### Invariants -/

/-- Every step keeps the machine's invariant (R20 to R25, R98, R103): canonical buffer, cursors within the buffer, the
write cursor at 0, and in every Reader a fault record that is absent or true. (The port is the model's field,
notes/assumptions/7.md, and a new buffer as one move the model's choice, notes/assumptions/9.md.) -/
def Obligations.StepKeepsInvariant : Prop :=
  ∀ s t : State, s.Inv → step s = .next t → t.Inv

/-- Every step keeps outputs and registers in agreement (R62, R105, R116): a Fault response exists exactly in a faulted
Reader, once, last and with its cause, and the trace mirrors the responses. (It survives a reset or a new buffer only because
these empty the Reader's recorded responses and trace, which is the model's, notes/assumptions/6.md; that a new buffer is one
move is too, notes/assumptions/9.md.) -/
def Obligations.StepKeepsOutputsInvariant : Prop :=
  ∀ s t : State, s.OutputsInv → step s = .next t → t.OutputsInv

/-- Both invariants hold at State.reset, whose launch parameters and empty recorded outputs are the model's
(notes/assumptions/2.md, 6.md). -/
def Obligations.ResetMeetsInvariants : Prop :=
  State.reset.Inv ∧ State.reset.OutputsInv
end

