-- ==== Sys2Proof/Laws/Decode.lean ====
section
/-! SUPPORT. The command word's fields, the decoder and the encoder as statements about numbers. -/

namespace Sys2Proof

theorem opField_toNat (cmd : Word) : (opField cmd).toNat = cmd.toNat / 2 ^ 28 := by
  have := cmd.isLt
  simp only [opField, BitVec.extractLsb'_toNat, Nat.shiftRight_eq_div_pow]
  omega

theorem rzField_toNat (cmd : Word) : (rzField cmd).toNat = cmd.toNat / 2 ^ 4 % 2 ^ 24 := by
  simp only [rzField, BitVec.extractLsb'_toNat, Nat.shiftRight_eq_div_pow]

theorem widthField_toNat (cmd : Word) : (widthField cmd).toNat = cmd.toNat % 2 ^ 4 := by
  simp only [widthField, BitVec.extractLsb'_toNat, Nat.shiftRight_eq_div_pow]
  omega

theorem posField_toNat (cmd : Word) : (posField cmd).toNat = cmd.toNat % 2 ^ 28 := by
  simp only [posField, BitVec.extractLsb'_toNat, Nat.shiftRight_eq_div_pow]
  omega

/-- The decoder with its tests on the number that the word is. -/
theorem decode_eq (cmd : Word) :
    decode cmd =
      if cmd.toNat / 2 ^ 28 = 1 ∧ cmd.toNat / 2 ^ 4 % 2 ^ 24 = 0 then .read (widthField cmd)
      else if cmd.toNat / 2 ^ 28 = 2 then .seek (posField cmd) else .illegal cmd := by
  have hop (k : BitVec 4) : opField cmd = k ↔ cmd.toNat / 2 ^ 28 = k.toNat := by
    rw [← BitVec.toNat_inj, opField_toNat]
  have hrz : rzField cmd = 0#24 ↔ cmd.toNat / 2 ^ 4 % 2 ^ 24 = 0 := by
    rw [← BitVec.toNat_inj, rzField_toNat]
    rfl
  simp only [decode, hop, hrz, BitVec.toNat_ofNat, Nat.reducePow, Nat.reduceMod]

/-- R60's list as a statement about numbers. -/
theorem isIllegalWord_iff (cmd : Word) :
    isIllegalWord cmd = true ↔
      cmd.toNat / 2 ^ 28 = 0 ∨ 3 ≤ cmd.toNat / 2 ^ 28 ∨
        (cmd.toNat / 2 ^ 28 = 1 ∧ cmd.toNat / 2 ^ 4 % 2 ^ 24 ≠ 0) := by
  simp [isIllegalWord, Nat.shiftRight_eq_div_pow, or_assoc]

theorem encode_read_toNat (w : BitVec 4) : (encode (.read w)).toNat = 0x10000000 + w.toNat := by
  revert w
  decide

theorem encode_seek_toNat (pos : BitVec 28) : (encode (.seek pos)).toNat = 0x20000000 + pos.toNat := by
  have h : (0x2#4).toNat <<< 28 + pos.toNat = (0x2#4).toNat <<< 28 ||| pos.toNat :=
    Nat.shiftLeft_add_eq_or_of_lt pos.isLt _
  simp only [encode, BitVec.toNat_append]
  rw [← h]
  rfl

@[simp] theorem encode_illegal (cmd : Word) : encode (.illegal cmd) = cmd := rfl

end Sys2Proof
end

