-- ==== Sys2Proof/Laws/State.lean ====
section
/-! SUPPORT. The small lemmas of the state: one per field per update, so that no later proof unfolds a record update. -/

namespace Sys2Proof.Machine

/-! ### State.setSlot -/

@[simp] theorem State.setSlot_nBytes (s : State) (r : Nat) (sl : Slot) : (s.setSlot r sl).nBytes = s.nBytes := rfl
@[simp] theorem State.setSlot_buf (s : State) (r : Nat) (sl : Slot) : (s.setSlot r sl).buf = s.buf := rfl
@[simp] theorem State.setSlot_traceEn (s : State) (r : Nat) (sl : Slot) : (s.setSlot r sl).traceEn = s.traceEn := rfl
@[simp] theorem State.setSlot_port (s : State) (r : Nat) (sl : Slot) : (s.setSlot r sl).port = s.port := rfl
@[simp] theorem State.setSlot_hostMoves (s : State) (r : Nat) (sl : Slot) :
    (s.setSlot r sl).hostMoves = s.hostMoves := rfl
@[simp] theorem State.setSlot_slots (s : State) (r : Nat) (sl : Slot) :
    (s.setSlot r sl).slots = s.slots.set r sl := rfl

theorem State.setSlot_same (s : State) (r : Nat) (sl : Slot) (h : r < s.slots.length) :
    (s.setSlot r sl).slots[r]? = some sl := by
  simp [h]

theorem State.setSlot_other (s : State) (r r' : Nat) (sl : Slot) (h : r' ≠ r) :
    (s.setSlot r sl).slots[r']? = s.slots[r']? := by
  simp [List.getElem?_set_ne (Ne.symm h)]

theorem State.setSlot_length (s : State) (r : Nat) (sl : Slot) :
    (s.setSlot r sl).slots.length = s.slots.length := by
  simp

/-! ### State.present and State.withFetchWord -/

@[simp] theorem State.present_nBytes (s : State) (r : Nat) (m : List HostMove) : (s.present r m).nBytes = s.nBytes := rfl
@[simp] theorem State.present_buf (s : State) (r : Nat) (m : List HostMove) : (s.present r m).buf = s.buf := rfl
@[simp] theorem State.present_traceEn (s : State) (r : Nat) (m : List HostMove) :
    (s.present r m).traceEn = s.traceEn := rfl
@[simp] theorem State.present_slots (s : State) (r : Nat) (m : List HostMove) : (s.present r m).slots = s.slots := rfl
@[simp] theorem State.present_port (s : State) (r : Nat) (m : List HostMove) : (s.present r m).port = r := rfl
@[simp] theorem State.present_hostMoves (s : State) (r : Nat) (m : List HostMove) : (s.present r m).hostMoves = m := rfl

@[simp] theorem State.withFetchWord_slots (s : State) (nbits w : Nat) : (s.withFetchWord nbits w).slots = s.slots := rfl
@[simp] theorem State.withFetchWord_nBytes (s : State) (nbits w : Nat) :
    (s.withFetchWord nbits w).nBytes = s.nBytes := rfl
@[simp] theorem State.withFetchWord_buf (s : State) (nbits w : Nat) : (s.withFetchWord nbits w).buf = s.buf := rfl
@[simp] theorem State.withFetchWord_port (s : State) (nbits w : Nat) : (s.withFetchWord nbits w).port = s.port := rfl
@[simp] theorem State.withFetchWord_hostMoves (s : State) (nbits w : Nat) :
    (s.withFetchWord nbits w).hostMoves = .command s.port (BitVec.ofNat 32 (w % 2 ^ nbits)) :: s.hostMoves := rfl

/-! ### Reader.setReadPos -/

@[simp] theorem Reader.setReadPos_readPos (rd : Reader) (v : Nat) :
    (rd.setReadPos v).readPos = BitVec.ofNat 28 v := rfl
@[simp] theorem Reader.setReadPos_writePos (rd : Reader) (v : Nat) : (rd.setReadPos v).writePos = rd.writePos := rfl
@[simp] theorem Reader.setReadPos_faulted (rd : Reader) (v : Nat) : (rd.setReadPos v).faulted = rd.faulted := rfl
@[simp] theorem Reader.setReadPos_cause (rd : Reader) (v : Nat) : (rd.setReadPos v).cause = rd.cause := rfl
@[simp] theorem Reader.setReadPos_faultCmd (rd : Reader) (v : Nat) : (rd.setReadPos v).faultCmd = rd.faultCmd := rfl
@[simp] theorem Reader.setReadPos_faultPos (rd : Reader) (v : Nat) : (rd.setReadPos v).faultPos = rd.faultPos := rfl

/-! ### Reader.faultEntry -/

@[simp] theorem Reader.faultEntry_readPos (rd : Reader) (c : Cause) (cmd : Word) :
    (rd.faultEntry c cmd).readPos = rd.readPos := rfl
@[simp] theorem Reader.faultEntry_writePos (rd : Reader) (c : Cause) (cmd : Word) :
    (rd.faultEntry c cmd).writePos = rd.writePos := rfl
@[simp] theorem Reader.faultEntry_faulted (rd : Reader) (c : Cause) (cmd : Word) :
    (rd.faultEntry c cmd).faulted = true := rfl
@[simp] theorem Reader.faultEntry_cause (rd : Reader) (c : Cause) (cmd : Word) :
    (rd.faultEntry c cmd).cause = c.code := rfl
@[simp] theorem Reader.faultEntry_faultCmd (rd : Reader) (c : Cause) (cmd : Word) :
    (rd.faultEntry c cmd).faultCmd = cmd := rfl
@[simp] theorem Reader.faultEntry_faultPos (rd : Reader) (c : Cause) (cmd : Word) :
    (rd.faultEntry c cmd).faultPos = rd.readPos := rfl

/-- FAULT_ENTRY is the record that claims write out. -/
theorem Reader.faultEntry_eq (rd : Reader) (c : Cause) (cmd : Word) :
    rd.faultEntry c cmd = faultRecord rd c.code cmd := rfl

/-! ### Slot.complete, Slot.reset, Reader.status -/

@[simp] theorem Slot.complete_reader (sl : Slot) (en : Bool) (r : Nat) (cmd : Word) (rd : Reader) (resp : Response) :
    (sl.complete en r cmd rd resp).reader = rd := rfl
@[simp] theorem Slot.complete_responses (sl : Slot) (en : Bool) (r : Nat) (cmd : Word) (rd : Reader)
    (resp : Response) : (sl.complete en r cmd rd resp).responses = sl.responses ++ [resp] := rfl
@[simp] theorem Slot.complete_trace (sl : Slot) (en : Bool) (r : Nat) (cmd : Word) (rd : Reader) (resp : Response) :
    (sl.complete en r cmd rd resp).trace = sl.trace ++ traceOf en r cmd sl.reader rd resp := rfl

@[simp] theorem Slot.reset_reader : Slot.reset.reader = Reader.reset := rfl
@[simp] theorem Slot.reset_responses : Slot.reset.responses = [] := rfl
@[simp] theorem Slot.reset_trace : Slot.reset.trace = [] := rfl

@[simp] theorem Reader.status_faulted (rd : Reader) : rd.status.faulted = rd.faulted := rfl
@[simp] theorem Reader.status_cause (rd : Reader) : rd.status.cause = rd.cause := rfl
@[simp] theorem Reader.status_faultCmd (rd : Reader) : rd.status.faultCmd = rd.faultCmd := rfl
@[simp] theorem Reader.status_faultPos (rd : Reader) : rd.status.faultPos = rd.faultPos := rfl

end Sys2Proof.Machine
end

