-- ==== Sys2Proof/Laws/Memory.lean ====
section
/-! SUPPORT. The buffer's cell list: the canonical form, and what a built buffer reads as. -/

namespace Sys2Proof.Machine

/-- A canonical list from a higher index is one from a lower index. -/
theorem Memory.wfFrom_mono {lo lo' n : Nat} (h : lo ≤ lo') {m : Memory} (hm : Memory.wfFrom lo' n m = true) :
    Memory.wfFrom lo n m = true := by
  cases m with
  | nil => rfl
  | cons c m =>
    simp only [Memory.wfFrom, Bool.and_eq_true, decide_eq_true_eq] at hm ⊢
    exact ⟨⟨⟨by omega, hm.1.1.2⟩, hm.1.2⟩, hm.2⟩

/-- A canonical list from index `lo` lists no index below `lo`. -/
theorem Memory.read_below {lo n i : Nat} {m : Memory} (hm : Memory.wfFrom lo n m = true) (h : i < lo) :
    m.read i = Config.unlistedByte := by
  induction m generalizing lo with
  | nil => rfl
  | cons c m ih =>
    obtain ⟨a, b⟩ := c
    simp only [Memory.wfFrom, Bool.and_eq_true, decide_eq_true_eq] at hm
    have ha : a ≠ i := by omega
    simpa [Memory.read, ha] using ih hm.2 (by omega)

/-- A buffer built from bytes is in canonical form, whatever the bytes. -/
theorem Memory.ofBytesFrom_wf (bytes : List Byte) (i n : Nat) (h : i + bytes.length ≤ n) :
    Memory.wfFrom i n (Memory.ofBytesFrom i bytes) = true := by
  induction bytes generalizing i with
  | nil => rfl
  | cons b bs ih =>
    simp only [List.length_cons] at h
    have hrest := ih (i + 1) (by omega)
    unfold Memory.ofBytesFrom
    split
    · exact Memory.wfFrom_mono (Nat.le_succ i) hrest
    · rename_i hb
      have hi : i < n := by omega
      simp [Memory.wfFrom, hrest, hb, hi]

theorem Memory.ofBytes_wf (bytes : List Byte) : Memory.wf bytes.length (Memory.ofBytes bytes) = true :=
  Memory.ofBytesFrom_wf bytes 0 bytes.length (by omega)

/-- A buffer built from bytes reads as those bytes. -/
theorem Memory.ofBytesFrom_read (bytes : List Byte) (i k : Nat) (h : k < bytes.length) :
    (Memory.ofBytesFrom i bytes).read (i + k) = bytes[k] := by
  induction bytes generalizing i k with
  | nil => simp at h
  | cons b bs ih =>
    have hwf := Memory.ofBytesFrom_wf bs (i + 1) (i + 1 + bs.length) (Nat.le_refl _)
    cases k with
    | zero =>
      by_cases hb : b = Config.unlistedByte
      · simp [Memory.ofBytesFrom, hb, Memory.read_below hwf (Nat.lt_succ_self i)]
      · simp [Memory.ofBytesFrom, hb, Memory.read]
    | succ k =>
      have hk : k < bs.length := by simpa using h
      have hread := ih (i + 1) k hk
      have hidx : i + (k + 1) = i + 1 + k := by omega
      have hne : ¬ i = i + 1 + k := by omega
      by_cases hb : b = Config.unlistedByte
      · simpa [Memory.ofBytesFrom, hb, hidx] using hread
      · simpa [Memory.ofBytesFrom, hb, Memory.read, hidx, hne] using hread

theorem Memory.ofBytes_read (bytes : List Byte) (k : Nat) (h : k < bytes.length) :
    (Memory.ofBytes bytes).read k = bytes[k] := by
  simpa [Memory.ofBytes] using Memory.ofBytesFrom_read bytes 0 k h

/-- The buffer at State.reset is in canonical form. -/
theorem reset_buffer_wf : Memory.wf State.reset.nBytes.val State.reset.buf = true := rfl

/-- Two canonical buffers that read the same at every index are the same list. -/
theorem Memory.ext_of_wf {lo n : Nat} {m m' : Memory} (hm : Memory.wfFrom lo n m = true)
    (hm' : Memory.wfFrom lo n m' = true) (h : ∀ i, m.read i = m'.read i) : m = m' := by
  induction m generalizing lo m' with
  | nil =>
    cases m' with
    | nil => rfl
    | cons c m' =>
      obtain ⟨a, b⟩ := c
      simp only [Memory.wfFrom, Bool.and_eq_true, decide_eq_true_eq, bne_iff_ne] at hm'
      exact absurd (by simpa [Memory.read] using (h a).symm) hm'.1.2
  | cons c m ih =>
    obtain ⟨a, b⟩ := c
    have hc := hm
    simp only [Memory.wfFrom, Bool.and_eq_true, decide_eq_true_eq, bne_iff_ne] at hc
    cases m' with
    | nil => exact absurd (by simpa [Memory.read] using h a) hc.1.2
    | cons c' m' =>
      obtain ⟨a', b'⟩ := c'
      have hc' := hm'
      simp only [Memory.wfFrom, Bool.and_eq_true, decide_eq_true_eq, bne_iff_ne] at hc'
      have haa : a = a' := by
        rcases Nat.lt_trichotomy a a' with hlt | heq | hgt
        · have hl := h a
          have hne : a' ≠ a := by omega
          simp [Memory.read, hne, Memory.read_below hc'.2 (show a < a' + 1 by omega)] at hl
          exact absurd hl hc.1.2
        · exact heq
        · have hl := h a'
          have hne : a ≠ a' := by omega
          simp [Memory.read, hne, Memory.read_below hc.2 (show a' < a + 1 by omega)] at hl
          exact absurd hl.symm hc'.1.2
      subst haa
      have hbb : b = b' := by simpa [Memory.read] using h a
      subst hbb
      have htail : m = m' := by
        refine ih hc.2 hc'.2 fun i => ?_
        by_cases hi : a = i
        · subst hi
          rw [Memory.read_below hc.2 (Nat.lt_succ_self a), Memory.read_below hc'.2 (Nat.lt_succ_self a)]
        · simpa [Memory.read, hi] using h i
      rw [htail]

/-- A byte index below N reads its byte. -/
theorem memRead_of_lt {nBytes : ByteCount} {buf : Memory} {i : Nat} (h : i < nBytes.val) :
    memRead nBytes buf i = .ok (buf.read i) := by
  simp [memRead, h]

/-- A byte index at N or above faults and gives no value. -/
theorem memRead_of_ge {nBytes : ByteCount} {buf : Memory} {i : Nat} (h : nBytes.val ≤ i) :
    memRead nBytes buf i = .error (.fault (.bufferIndex i)) := by
  simp [memRead, Nat.not_lt.mpr h]

end Sys2Proof.Machine
end

