-- ==== Sys2Proof/Laws/Extract.lean ====
section
/-!
SUPPORT. The bit primitives and EXTRACT where their preconditions hold: the plain expressions they then give, so that no
later proof unfolds the raising forms.
-/

namespace Sys2Proof.Machine

theorem select_of_range {start stop : Nat} (v : Byte) (h : start ≤ stop) (h' : stop ≤ 7) :
    select v start stop = .ok (v &&& selMask start stop) := by
  simp [select, h, h']

theorem shift_of_range {start offset : Nat} (v : Byte) (h : start ≤ 7) (h' : offset ≤ 8) :
    shift v start offset = .ok ((v >>> start) <<< offset) := by
  simp [shift, h, h']

theorem twoBytes_iff (p n : Nat) : twoBytes p n = true ↔ localEnd p n < localStart p := by
  simp [twoBytes]

theorem twoBytes_false_iff (p n : Nat) : twoBytes p n = false ↔ localStart p ≤ localEnd p n := by
  simp [twoBytes]

/-- Step 5's value for a given first byte. -/
def firstBits (byte : Byte) (p n : Nat) : Byte :=
  (byte &&& selMask (localStart p) (if twoBytes p n then 7 else localEnd p n)) >>> localStart p

/-- Step 6's value for a given second byte. -/
def secondBits (byte : Byte) (p n : Nat) : Byte :=
  if twoBytes p n then (byte &&& selMask 0 (localEnd p n)) <<< countFirst p n else 0

theorem firstPart_eq {nBytes : ByteCount} {buf : Memory} {p n : Nat} (h1 : 1 ≤ n)
    (hcap : p + n ≤ capacity nBytes) :
    firstPart nBytes buf p n = .ok (firstBits (buf.read (byteFirst p)) p n) := by
  have hbyte : byteFirst p < nBytes.val := by simp only [byteFirst, capacity] at *; omega
  have hstart : localStart p ≤ 7 := by simp only [localStart]; omega
  have hstop : localStart p ≤ (if twoBytes p n then 7 else localEnd p n) := by
    by_cases ht : twoBytes p n = true
    · simpa [ht] using hstart
    · have hle := (twoBytes_false_iff p n).mp (by simpa using ht)
      simpa [ht] using hle
  have hstop7 : (if twoBytes p n then 7 else localEnd p n) ≤ 7 := by
    by_cases ht : twoBytes p n = true
    · simp [ht]
    · simp only [ht, localEnd]
      simp only [Bool.false_eq_true, if_false]
      omega
  simp only [firstPart, memRead_of_lt hbyte, select_of_range _ hstop hstop7,
    shift_of_range _ hstart (Nat.zero_le 8), bind, Except.bind, BitVec.shiftLeft_zero, firstBits]

theorem secondPart_eq {nBytes : ByteCount} {buf : Memory} {p n : Nat} (h1 : 1 ≤ n) (h8 : n ≤ 8)
    (hcap : p + n ≤ capacity nBytes) :
    secondPart nBytes buf p n = .ok (secondBits (buf.read (byteLast p n)) p n) := by
  by_cases ht : twoBytes p n = true
  · have hbyte : byteLast p n < nBytes.val := by simp only [byteLast, capacity] at *; omega
    have hend : localEnd p n ≤ 7 := by simp only [localEnd]; omega
    have hcount : countFirst p n ≤ 8 := by simp only [countFirst]; omega
    simp only [secondPart, ht, if_true, memRead_of_lt hbyte, select_of_range _ (Nat.zero_le _) hend,
      shift_of_range _ (Nat.zero_le 7) hcount, bind, Except.bind, BitVec.ushiftRight_zero, secondBits]
  · simp [secondPart, secondBits, ht]

/-- EXTRACT at an illegal width, whatever the position and the buffer (R74's first check). -/
theorem extract_of_width {nBytes : ByteCount} {buf : Memory} {p n : Nat} (h : ¬(1 ≤ n ∧ n ≤ 8)) :
    extract nBytes buf p n = .error (.violation (.widthRange n)) := by
  simp only [extract, if_pos h, raise]

/-- EXTRACT at a legal width that does not fit (R74's second check). -/
theorem extract_of_overrun {nBytes : ByteCount} {buf : Memory} {p n : Nat} (h : 1 ≤ n ∧ n ≤ 8)
    (hcap : ¬ p + n ≤ capacity nBytes) :
    extract nBytes buf p n = .error (.violation (.readOverrun p n)) := by
  simp only [extract, if_neg (not_not_intro h), if_pos hcap, raise]

/-- EXTRACT past its checks, in plain expressions. -/
theorem extract_eq {nBytes : ByteCount} {buf : Memory} {p n : Nat} (h1 : 1 ≤ n) (h8 : n ≤ 8)
    (hcap : p + n ≤ capacity nBytes) :
    extract nBytes buf p n = .ok
      (firstBits (buf.read (byteFirst p)) p n ||| secondBits (buf.read (byteLast p n)) p n, p + n) := by
  simp [extract, h1, h8, hcap, firstPart_eq h1 hcap, secondPart_eq h1 h8 hcap, bind, Except.bind, pure, Except.pure]

end Sys2Proof.Machine
end

