-- ==== Sys2Proof/Laws/Ops.lean ====
section
/-!
SUPPORT. What each shared operation can do, said once: performing a command, the host's other moves, and a step.
-/

namespace Sys2Proof.Machine

/-- Where the port names no Reader, no command is performed. -/
theorem perform_of_none {s : State} {cmd : Word} {act : Reader → Result (Reader × Response)}
    (h : s.slots[s.port]? = none) : perform s cmd act = .refused (.noSuchReader s.port) := by
  simp [perform, State.current, h]

/-- A faulted Reader performs no command (R105). -/
theorem perform_of_faulted {s : State} {cmd : Word} {act : Reader → Result (Reader × Response)} {sl : Slot}
    (h : s.slots[s.port]? = some sl) (hf : sl.reader.faulted = true) : perform s cmd act = .next s := by
  simp [perform, State.current, h, hf]

/-- A command that succeeds at a ready Reader. -/
theorem perform_of_ok {s : State} {cmd : Word} {act : Reader → Result (Reader × Response)} {sl : Slot} {rd : Reader}
    {resp : Response} (h : s.ready sl) (hact : act sl.reader = .ok (rd, resp)) :
    perform s cmd act = .next (s.setSlot s.port (sl.complete s.traceEn s.port cmd rd resp)) := by
  simp [perform, State.current, h.1, h.2, hact]

/-- A command that raises a violation at a ready Reader takes the fault entry (R103). -/
theorem perform_of_violation {s : State} {cmd : Word} {act : Reader → Result (Reader × Response)} {sl : Slot}
    {v : Violation} (h : s.ready sl) (hact : act sl.reader = .error (.violation v)) :
    perform s cmd act = .next (s.setSlot s.port
      (sl.complete s.traceEn s.port cmd (sl.reader.faultEntry v.cause cmd) (.fault v.cause))) := by
  simp [perform, State.current, h.1, h.2, hact]

/-- A performed command in the terms of claims. -/
theorem performed_setSlot (s : State) (sl : Slot) (cmd : Word) (rd : Reader) (resp : Response) :
    Performed s (s.setSlot s.port (sl.complete s.traceEn s.port cmd rd resp)) sl cmd rd resp := rfl

/-- Everything a command word can do when it answers a next state: nothing, at a faulted Reader; the command's own
effect; or the fault entry. -/
theorem perform_next {s t : State} {cmd : Word} {act : Reader → Result (Reader × Response)}
    (h : perform s cmd act = .next t) :
    ∃ sl, s.slots[s.port]? = some sl ∧
      ((sl.reader.faulted = true ∧ t = s) ∨
       (sl.reader.faulted = false ∧ ∃ rd resp, act sl.reader = .ok (rd, resp) ∧
          t = s.setSlot s.port (sl.complete s.traceEn s.port cmd rd resp)) ∨
       (sl.reader.faulted = false ∧ ∃ v, act sl.reader = .error (.violation v) ∧
          t = s.setSlot s.port
            (sl.complete s.traceEn s.port cmd (sl.reader.faultEntry v.cause cmd) (.fault v.cause)))) := by
  rcases hsl : s.slots[s.port]? with _ | sl
  · simp [perform_of_none hsl] at h
  refine ⟨sl, rfl, ?_⟩
  cases hf : sl.reader.faulted with
  | true => exact .inl ⟨rfl, by simpa [perform_of_faulted hsl hf] using h.symm⟩
  | false =>
    rcases hact : act sl.reader with (v | f) | ⟨rd, resp⟩
    · exact .inr (.inr ⟨rfl, v, rfl, by simpa [perform_of_violation ⟨hsl, hf⟩ hact] using h.symm⟩)
    · simp [perform, State.current, hsl, hf, hact] at h
    · exact .inr (.inl ⟨rfl, rd, resp, rfl, by simpa [perform_of_ok ⟨hsl, hf⟩ hact] using h.symm⟩)

/-- No command changes the buffer or N (R42, R94), so the canonical form stays. -/
theorem perform_buffer {s t : State} {cmd : Word} {act : Reader → Result (Reader × Response)}
    (h : perform s cmd act = .next t) : t.buf = s.buf ∧ t.nBytes = s.nBytes := by
  obtain ⟨sl, _, ⟨_, rfl⟩ | ⟨_, rd, resp, _, rfl⟩ | ⟨_, v, _, rfl⟩⟩ := perform_next h <;> exact ⟨rfl, rfl⟩

/-- What each instruction does with the registers of its Reader. -/
def commandAct (nBytes : ByteCount) (buf : Memory) : Instr → Reader → Result (Reader × Response)
  | .read w => readAct nBytes buf (widthOperand w)
  | .seek pos => seekAct nBytes (posOperand pos)
  | .illegal cmd => illegalAct cmd

/-- Every meaning is one performed command word, the instruction's own encoding. -/
theorem exec_eq_perform (i : Instr) (s : State) :
    exec i s = perform s (encode i) (commandAct s.nBytes s.buf i) := by
  cases i <;> rfl

theorem exec_read (w : BitVec 4) (s : State) :
    exec (.read w) s = perform s (encode (.read w)) (readAct s.nBytes s.buf w.toNat) := rfl

theorem exec_seek (pos : BitVec 28) (s : State) :
    exec (.seek pos) s = perform s (encode (.seek pos)) (seekAct s.nBytes pos.toNat) := rfl

theorem exec_illegal (cmd : Word) (s : State) :
    exec (.illegal cmd) s = perform s cmd (illegalAct cmd) := rfl

/-- SEEK within the buffer. -/
theorem seekAct_of_le {nBytes : ByteCount} {pos : Nat} (rd : Reader) (h : pos ≤ capacity nBytes) :
    seekAct nBytes pos rd = .ok (rd.setReadPos pos, .ack) := by
  simp [seekAct, h]

/-- SEEK past the end of the buffer. -/
theorem seekAct_of_gt {nBytes : ByteCount} {pos : Nat} (rd : Reader) (h : capacity nBytes < pos) :
    seekAct nBytes pos rd = .error (.violation (.seekRange pos)) := by
  simp [seekAct, Nat.not_le.mpr h, raise]

/-- What asserting a reset input does when it answers a next state. -/
theorem resetReader_next {s t : State} {r : Nat} (h : resetReader s r = .next t) :
    r < s.slots.length ∧ t = s.setSlot r Slot.reset := by
  unfold resetReader at h
  split at h
  · exact ⟨‹_›, by simpa using h.symm⟩
  · simp at h

/-- What a new buffer does when it answers a next state. -/
theorem bootBuffer_next {s t : State} {bytes : List Byte} (h : bootBuffer s bytes = .next t) :
    ∃ hlen : bytes.length < 2 ^ 25,
      t = { s with
        nBytes := ⟨bytes.length, hlen⟩
        buf := Memory.ofBytes bytes
        slots := s.slots.map (fun _ => Slot.reset) } := by
  unfold bootBuffer at h
  split at h
  · exact ⟨‹_›, by simpa using h.symm⟩
  · simp at h

/-- Everything a step can do when it answers a next state. -/
theorem step_next {s t : State} (h : step s = .next t) :
    (s.hostMoves = [] ∧ t = s) ∨
    (∃ r cmd rest, s.hostMoves = .command r cmd :: rest ∧ exec (decode cmd) (s.present r rest) = .next t) ∨
    (∃ r rest, s.hostMoves = .reset r :: rest ∧ r < s.slots.length ∧
      t = ({ s with hostMoves := rest }).setSlot r Slot.reset) ∨
    (∃ bytes rest, s.hostMoves = .boot bytes :: rest ∧ ∃ hlen : bytes.length < 2 ^ 25,
      t = { s with
        nBytes := ⟨bytes.length, hlen⟩
        buf := Memory.ofBytes bytes
        slots := s.slots.map (fun _ => Slot.reset)
        hostMoves := rest }) := by
  rcases hm : s.hostMoves with _ | ⟨m, rest⟩
  · exact .inl ⟨rfl, by simpa [step, hm] using h.symm⟩
  right
  cases m with
  | command r cmd => exact .inl ⟨r, cmd, rest, rfl, by simpa [step, hm] using h⟩
  | reset r =>
    obtain ⟨hr, ht⟩ := resetReader_next (by simpa [step, hm] using h)
    exact .inr (.inl ⟨r, rest, rfl, hr, ht⟩)
  | boot bytes =>
    obtain ⟨hlen, ht⟩ := bootBuffer_next (by simpa [step, hm] using h)
    exact .inr (.inr ⟨bytes, rest, rfl, hlen, ht⟩)

/-! ### Runs -/

@[simp] theorem runFor_zero (s : State) : runFor 0 s = .next s := rfl

/-- The first of `k + 1` steps, where it answers a next state. -/
theorem runFor_succ_of_next {k : Nat} {s t : State} (h : step s = .next t) : runFor (k + 1) s = runFor k t := by
  simp only [runFor, h]

/-- The host's run of any machine, where its first step answers a next state, a fault, a refusal. -/
theorem coreRun_next (M : Host.Core) (k : Nat) {s t : M.State} (h : M.step s = .next t) :
    M.run (k + 1) s = M.run k t := by
  simp [Host.Core.run, h]

theorem coreRun_fault (M : Host.Core) (k : Nat) {s : M.State} {f : M.Fault} (h : M.step s = .fault f) :
    M.run (k + 1) s = .fault f := by
  simp [Host.Core.run, h]

theorem coreRun_refused (M : Host.Core) (k : Nat) {s : M.State} {why : M.Refusal} (h : M.step s = .refused why) :
    M.run (k + 1) s = .refused why := by
  simp [Host.Core.run, h]

/-- Runs are the host's own runs of the machine. -/
theorem runFor_eq_coreRun (k : Nat) (s : State) : runFor k s = Host.Core.run Sys2Proof.core k s := by
  induction k generalizing s with
  | zero => rfl
  | succ k ih =>
    cases h : step s with
    | next t => exact (runFor_succ_of_next h).trans ((ih t).trans (coreRun_next Sys2Proof.core k h).symm)
    | fault f =>
      exact (show runFor (k + 1) s = .fault f by simp only [runFor, h]).trans
        (coreRun_fault Sys2Proof.core k h).symm
    | refused why =>
      exact (show runFor (k + 1) s = .refused why by simp only [runFor, h]).trans
        (coreRun_refused Sys2Proof.core k h).symm

@[simp] theorem runMoves_nil (s : State) : runMoves s [] = .next { s with hostMoves := [] } := rfl

/-- The moves a state still holds do not matter to a run of given moves. -/
@[simp] theorem runMoves_withMoves (s : State) (pending moves : List HostMove) :
    runMoves { s with hostMoves := pending } moves = runMoves s moves := rfl

/-- A run of moves whose first one answers a next state. -/
theorem runMoves_cons_of_next {s t : State} {m : HostMove} {moves : List HostMove}
    (h : step { s with hostMoves := m :: moves } = .next t) (hm : t.hostMoves = moves) :
    runMoves s (m :: moves) = runMoves t moves := by
  subst hm
  exact runFor_succ_of_next h

end Sys2Proof.Machine
end

