-- ==== Sys2Proof/Laws/Launch.lean ====
section
/-!
SUPPORT. The launch premises of R132: which of them every state meets, which rest on the host's moves, and what the moves of
a launch come to for its own Reader.
-/

namespace Sys2Proof.Machine

/-- WF_N holds of every state. -/
theorem State.wfN_all (s : State) : s.wfN := by
  have := s.nBytes.isLt
  unfold State.wfN
  omega

/-- BUF has a byte at exactly the indexes below N, in every state. -/
theorem memRead_ok_iff (nBytes : ByteCount) (buf : Memory) (i : Nat) :
    (∃ b, memRead nBytes buf i = .ok b) ↔ i < nBytes.val := by
  unfold memRead
  split <;> simp_all

/-- What BUF_STABLE asks is the host's duty alone. -/
theorem State.bufStable_iff (s : State) (moves : List HostMove) :
    s.bufStable moves ↔ ∀ bytes, .boot bytes ∉ moves :=
  and_iff_right (memRead_ok_iff s.nBytes s.buf)

/-- Command words to one Reader and nothing else are serial, and keep the buffer. -/
theorem serial_commands (r : Nat) (cmds : List Word) : serial r (cmds.map (.command r)) cmds := by
  unfold serial
  rw [List.filter_eq_self]
  simp [HostMove.isTo]

theorem State.bufStable_commands (s : State) (r : Nat) (cmds : List Word) :
    s.bufStable (cmds.map (.command r)) :=
  (s.bufStable_iff _).mpr (by simp)

theorem Reader.reset_resetClean : Reader.reset.resetClean := ⟨rfl, rfl, rfl, rfl, rfl, rfl⟩

/-- With no new buffer among them, the moves that concern a Reader are the moves to it. -/
theorem filter_concerns_eq {moves : List HostMove} (h : ∀ bytes, .boot bytes ∉ moves) (r : Nat) :
    moves.filter (HostMove.concerns r) = moves.filter (HostMove.isTo r) := by
  refine List.filter_congr fun m hm => ?_
  cases m with
  | command r' cmd => rfl
  | reset r' => rfl
  | boot bytes => exact absurd hm (h bytes)

/-- With no new buffer among them, moves that name only existing Readers are within launches. -/
theorem within_of_namesReader {moves : List HostMove} {readers : Nat} (h : ∀ bytes, .boot bytes ∉ moves)
    (hm : ∀ m ∈ moves, m.namesReader readers = true) : ∀ m ∈ moves, m.within readers = true := by
  intro m hmem
  cases m with
  | command r' cmd => exact hm _ hmem
  | reset r' => exact hm _ hmem
  | boot bytes => exact absurd hmem (h bytes)

/-- In a launch, the moves that concern its Reader are its command words. -/
theorem LaunchPremises.concerns {s : State} {r : Nat} {cmds : List Word} {moves : List HostMove}
    (h : LaunchPremises s r cmds moves) : moves.filter (HostMove.concerns r) = cmds.map (.command r) :=
  (filter_concerns_eq h.bufStable.2 r).trans h.serial

end Sys2Proof.Machine
end

