-- ==== Sys2Proof/Laws/PerInstr.lean ====
section
/-!
SUPPORT. Statements made per instruction: the family DecodedWellFormed, that an instruction a word decodes to is
well-formed.
-/

namespace Sys2Proof.Laws.DecodedWellFormed

/-- A word decodes to `i` only if `i` is well-formed. -/
def Statement (i : Instr) : Prop := ∀ cmd : Word, decode cmd = i → WellFormed i

theorem read (w : BitVec 4) : Statement (.read w) := fun _ _ => rfl

theorem seek (pos : BitVec 28) : Statement (.seek pos) := fun _ _ => rfl

theorem illegal (cmd : BitVec 32) : Statement (.illegal cmd) := by
  intro word h
  rw [decode_eq] at h
  split at h
  · simp at h
  split at h
  · simp at h
  obtain rfl : word = cmd := by simpa using h
  exact (isIllegalWord_iff word).mpr (by omega)

end Sys2Proof.Laws.DecodedWellFormed
end

