-- ==== Sys2Proof/Tests/Slice0.lean ====
section
/-!
SUPPORT. The session's own tests. Expected results come from spec/95_test_vectors.md, from R66 and from the encoding
tables R53 and R54. Then, for every obligation with hypotheses, a witness that meets them, at the boundaries of its
clauses.
-/

namespace Sys2Proof.Tests

open Sys2Proof Sys2Proof.Machine

/-! ### WellFormed -/

theorem test_wellFormed_refuses_read_word_as_illegal : ¬ WellFormed (.illegal 0x10000001) := by decide
theorem test_wellFormed_refuses_seek_word_as_illegal : ¬ WellFormed (.illegal 0x2FFFFFFF) := by decide
theorem test_wellFormed_accepts_op0 : WellFormed (.illegal 0x00000000) := by decide
theorem test_wellFormed_accepts_op3 : WellFormed (.illegal 0x30000000) := by decide
theorem test_wellFormed_accepts_op15 : WellFormed (.illegal 0xFFFFFFFF) := by decide
theorem test_wellFormed_accepts_nonzero_rz : WellFormed (.illegal 0x18000004) := by decide

/-! ### Decoding: words written out from R53 and R54, and section 2.4 of the test vectors -/

theorem test_decode_read_7 : decode 0b0001_0000_0000_0000_0000_0000_0000_0111 = .read 7 := by decide
theorem test_decode_read_15 : decode 0b0001_0000_0000_0000_0000_0000_0000_1111 = .read 15 := by decide
theorem test_decode_seek_12 : decode 0b0010_0000_0000_0000_0000_0000_0000_1100 = .seek 12 := by decide
theorem test_decode_seek_top : decode 0b0010_1111_1111_1111_1111_1111_1111_1111 = .seek 268435455 := by decide
theorem test_decode_illegal_op3 :
    decode 0b0011_0000_0000_0000_0000_0000_0000_0000 = .illegal 0x30000000 := by decide
theorem test_decode_illegal_rz4 : decode 0x10000010 = .illegal 0x10000010 := by decide
theorem test_decode_illegal_rz27 : decode 0x18000004 = .illegal 0x18000004 := by decide
theorem test_decode_illegal_op4 : decode 0x40000001 = .illegal 0x40000001 := by decide
theorem test_encode_read_4 : encode (.read 4) = 0x10000004 := by decide
theorem test_encode_seek_24 : encode (.seek 24) = 0x20000018 := by decide
theorem test_decodeTableWord_seek : decodeTableWord 32 0x20000018 = some (.seek 24) := by decide

/-! ### The primitives: sections 2.1 and 2.2 of the test vectors -/

/-- The value of an operation that raised nothing. -/
def valueOf {α : Type} : Result α → Option α
  | .ok a => some a
  | .error _ => none

/-- The cause that an operation raised. -/
def raisedBy {α : Type} : Result α → Option Cause
  | .error (.violation v) => some v.cause
  | _ => none

theorem test_select_middle : valueOf (select 0xA5 2 5) = some 0x24 := by decide
theorem test_select_top : valueOf (select 0xFD 5 7) = some 0xE0 := by decide
theorem test_select_order : raisedBy (select 0xFF 5 2) = some .selectRange := by decide
theorem test_select_stop8 : raisedBy (select 0xFF 0 8) = some .selectRange := by decide
theorem test_shift_left : valueOf (shift 0x0A 0 3) = some 0x50 := by decide
theorem test_shift_discards : valueOf (shift 0x81 0 1) = some 0x02 := by decide
theorem test_shift_top_to_top : valueOf (shift 0xFF 7 7) = some 0x80 := by decide
theorem test_shift_start8 : raisedBy (shift 0xFF 8 0) = some .shiftRange := by decide
theorem test_shift_offset9 : raisedBy (shift 0xFF 0 9) = some .shiftRange := by decide

/-! ### EXTRACT: section 2.3 of the test vectors, buffer A -/

/-- Buffer A of the test vectors. -/
def bufA : Memory := [(0, 0xFD), (1, 0x8A), (2, 0xF7)]

/-- Its N. -/
def lenA : ByteCount := ⟨3, by decide⟩

theorem test_bufA_from_bytes : Memory.ofBytes [0xFD, 0x8A, 0xF7] = bufA := by decide
theorem test_ofBytes_leaves_out_zero : Memory.ofBytes [0x00, 0x8A] = [(1, 0x8A)] := by decide
theorem test_wf_refuses_order : Memory.wf 3 [(1, 0x8A), (0, 0xFD)] = false := by decide
theorem test_wf_refuses_zero : Memory.wf 3 [(0, 0x00)] = false := by decide
theorem test_wf_refuses_past_end : Memory.wf 3 [(3, 0x01)] = false := by decide
theorem test_extract_crossing : valueOf (extract lenA bufA 9 8) = some (0xC5, 17) := by decide
theorem test_extract_last_bit : valueOf (extract lenA bufA 23 1) = some (1, 24) := by decide
theorem test_extract_even_split : valueOf (extract lenA bufA 12 8) = some (0x78, 20) := by decide
theorem test_extract_smallest_crossing : valueOf (extract lenA bufA 7 2) = some (1, 9) := by decide
theorem test_extract_both_conditions : raisedBy (extract lenA bufA 20 9) = some .widthRange := by decide
theorem test_extract_past_boundary : raisedBy (extract lenA bufA 18 7) = some .readOverrun := by decide
theorem test_memRead_past_end : valueOf (memRead lenA bufA 3) = none := by decide

/-! ### The commands: section 2.5 of the test vectors, buffer A -/

/-- A Reader that is not faulted, its cursor at `p`, at the start of its outputs. -/
def slotAt (p : Pos) : Slot := { reader := { Reader.reset with readPos := p }, responses := [], trace := [] }

/-- A Reader that took ILLEGAL_COMMAND for 0x10000104 at position 7 (section 2.5). -/
def faultedSlot : Slot :=
  { reader := { Reader.reset with
      readPos := 7, faulted := true, cause := 1, faultCmd := 0x10000104, faultPos := 7 }
    responses := [.fault .illegalCommand]
    trace := [] }

/-- One Reader over buffer A. -/
def stateA (sl : Slot) : State :=
  { nBytes := lenA, buf := bufA, traceEn := false, slots := [sl], port := 0, hostMoves := [] }

/-- The Reader at index 0 after an outcome, if it is a next state. -/
def slot0 : Host.Outcome State Fault Refusal → Option Slot
  | .next t => t.slots[0]?
  | _ => none

/-- Its cursor, responses as words, and status outputs. -/
def view (o : Host.Outcome State Fault Refusal) : Option (Pos × List RespWord × StatusOutputs) :=
  (slot0 o).map fun sl => (sl.reader.readPos, sl.responses.map Response.word, sl.reader.status)

theorem test_read_8_crossing :
    view (exec (.read 8) (stateA (slotAt 12))) = some (20, [0x0178], ⟨false, 0, 0, 0⟩) := by decide
theorem test_read_at_end_overruns :
    view (exec (.read 1) (stateA (slotAt 24))) = some (24, [0x0303], ⟨true, 3, 0x10000001, 24⟩) := by decide
theorem test_seek_to_end :
    view (exec (.seek 24) (stateA (slotAt 0))) = some (24, [0x0200], ⟨false, 0, 0, 0⟩) := by decide
theorem test_seek_past_end :
    view (exec (.seek 25) (stateA (slotAt 3))) = some (3, [0x0304], ⟨true, 4, 0x20000019, 3⟩) := by decide
theorem test_illegal_rz :
    view (exec (.illegal 0x10000104) (stateA (slotAt 7))) = some (7, [0x0301], ⟨true, 1, 0x10000104, 7⟩) := by decide
theorem test_illegal_at_faulted_reader :
    slot0 (exec (.illegal 0) (stateA faultedSlot)) = some faultedSlot := by decide

/-! ### A step, and the other host moves -/

theorem test_step_read_9_reports_width :
    view (step { stateA (slotAt 20) with hostMoves := [.command 0 0x10000009] }) =
      some (20, [0x0302], ⟨true, 2, 0x10000009, 20⟩) := by decide
theorem test_step_faulted_reader_drops_word :
    slot0 (step { stateA faultedSlot with hostMoves := [.command 0 0x10000001] }) = some faultedSlot := by decide
theorem test_step_reset_leaves_fault :
    slot0 (step { stateA faultedSlot with hostMoves := [.reset 0] }) = some (slotAt 0) := by decide
theorem test_step_boot :
    (match step { stateA faultedSlot with hostMoves := [.boot [0xA5, 0x3C]] } with
      | .next t => some (t.nBytes.val, t.buf, t.slots)
      | _ => none) = some (2, [(0, 0xA5), (1, 0x3C)], [slotAt 0]) := by decide
theorem test_step_trace_event :
    (slot0 (step { stateA (slotAt 0) with traceEn := true, hostMoves := [.command 0 0x10000001] })).map Slot.trace =
      some [⟨0, 0x10000001, 0, .data 1, 1⟩] := by decide
/-- Program P6, its second command: Reader 1 reads a byte and Reader 0 stays. -/
theorem test_step_second_reader :
    (match step { stateA (slotAt 4) with slots := [slotAt 4, slotAt 0], hostMoves := [.command 1 0x10000008] } with
      | .next t => some (t.slots.map fun sl => (sl.reader.readPos, sl.responses))
      | _ => none) = some [(4, []), (8, [.data 253])] := by decide
theorem test_first_instruction_after_reset :
    view (step (State.reset.withFetchWord 32 0x20000018)) = some (24, [0x0200], ⟨false, 0, 0, 0⟩) := by decide

/-! ### The assembler: R64, R66 -/

theorem test_assemble_program :
    assemble [
      ['S', 'E', 'E', 'K', ' ', '1', '2', ' ', ';', 'x'],
      ['r', 'e', 'a', 'd', 'B', 'i', 't', 's', '(', '8', ')'],
      [],
      ['r', 'e', 's', 'e', 't', 'R', 'e', 'a', 'd', ' ', '0', 'b', '1', '1'],
      ['.', 'w', 'o', 'r', 'd', ' ', '0', 'x', '3', '0', '0', '0', '0', '0', '0', '0']] =
      some [0x2000000C, 0x10000008, 0x20000003, 0x30000000] := by decide
theorem test_assemble_refuses_wide_width : assemble [['R', 'E', 'A', 'D', ' ', '1', '6']] = none := by decide
theorem test_assemble_refuses_unknown_name : assemble [['W', 'R', 'I', 'T', 'E', ' ', '1']] = none := by decide

/-! ### Witnesses: the hypotheses of each obligation can be met, at the boundaries of its clauses -/

theorem witness_DecodeOfEncode :
    WellFormed (.read 15) ∧ WellFormed (.seek 268435455) ∧ WellFormed (.illegal 0x10000010) ∧
      WellFormed (.illegal 0x30000000) := by decide

theorem witness_DecodeIsTheOpcodeMap :
    (let cmd : Word := 0x1000000F; cmd.toNat / 2 ^ 28 = 0x1 ∧ cmd.toNat / 2 ^ 4 % 2 ^ 24 = 0) ∧
    (let cmd : Word := 0x2FFFFFFF; cmd.toNat / 2 ^ 28 = 0x2) ∧
    (let cmd : Word := 0x10000010;
      ¬(cmd.toNat / 2 ^ 28 = 0x1 ∧ cmd.toNat / 2 ^ 4 % 2 ^ 24 = 0) ∧ ¬cmd.toNat / 2 ^ 28 = 0x2) ∧
    (let cmd : Word := 0x30000000;
      ¬(cmd.toNat / 2 ^ 28 = 0x1 ∧ cmd.toNat / 2 ^ 4 % 2 ^ 24 = 0) ∧ ¬cmd.toNat / 2 ^ 28 = 0x2) := by decide

theorem witness_AssembledCommandsDecode :
    15 ≤ 15 ∧ 15 < 16 ∧ 268435455 ≤ 2 ^ 28 - 1 ∧ 2 ^ 28 - 1 < 268435456 ∧ 4294967295 < 2 ^ 32 ∧
      2 ^ 32 ≤ 4294967296 := by decide

theorem witness_SelectKeepsTheRange : (7 ≤ 7 ∧ 7 ≤ 7) ∧ (2 < 5 ∨ 7 < 2) ∧ (8 < 0 ∨ 7 < 8) := by decide

theorem witness_SelectMaskBits : (0 ≤ 7 ∧ 7 ≤ 7) ∧ (3 ≤ 3 ∧ 3 ≤ 7) := by decide

theorem witness_ShiftTruncates : (7 ≤ 7 ∧ 8 ≤ 8) ∧ (7 < 8 ∨ 8 < 0) ∧ (7 < 0 ∨ 8 < 9) := by decide

theorem witness_ExtractPreconditions :
    (0 = 0 ∨ 9 ≤ 0) ∧ (9 = 0 ∨ 9 ≤ 9) ∧ (1 ≤ 8 ∧ 8 ≤ 8 ∧ 8 * lenA.val < 17 + 8) ∧
      (1 ≤ 8 ∧ 8 ≤ 8 ∧ 16 + 8 ≤ 8 * lenA.val) := by decide

theorem witness_ExtractPacksLittleEndian :
    (1 ≤ 8 ∧ 8 ≤ 8 ∧ 12 + 8 ≤ 8 * lenA.val) ∧ (1 ≤ 1 ∧ 1 ≤ 8 ∧ 23 + 1 ≤ 8 * lenA.val) := by decide

theorem witness_TwoBytesMeansNextByte :
    (1 ≤ 2 ∧ 2 ≤ 8 ∧ twoBytes 7 2 = true) ∧ (1 ≤ 8 ∧ 8 ≤ 8 ∧ twoBytes 0 8 = false) := by decide

theorem witness_CountInvariants :
    (1 ≤ 8 ∧ 8 ≤ 8 ∧ twoBytes 7 8 = true ∧ 7 + 8 ≤ 8 * lenA.val) ∧ (1 ≤ 1 ∧ 1 ≤ 8 ∧ twoBytes 7 1 = false) := by decide

theorem witness_ExtractStaysInsideTheBuffer :
    (1 ≤ 8 ∧ 8 ≤ 8 ∧ 16 + 8 ≤ 8 * lenA.val) ∧ (0 : ByteCount).val = 0 := by decide

theorem witness_PrimitiveFaultsUnreachable :
    (1 ≤ 8 ∧ 8 ≤ 8 ∧ twoBytes 0 8 = false) ∧ (stateA (slotAt 12)).ready (slotAt 12) ∧
      ∃ t sl', exec (.read 8) (stateA (slotAt 12)) = .next t ∧ t.slots[0]? = some sl' ∧
        sl'.responses = (slotAt 12).responses ++ [.data 120] :=
  ⟨by decide, by decide, _, _, rfl, rfl, by decide⟩

theorem witness_PartsDoNotOverlap :
    (1 ≤ 8 ∧ 8 ≤ 8 ∧ 9 + 8 ≤ 8 * lenA.val ∧ twoBytes 9 8 = true) ∧
      (1 ≤ 1 ∧ 1 ≤ 8 ∧ 23 + 1 ≤ 8 * lenA.val) := by decide

theorem witness_FullBytePassthrough : 16 % 8 = 0 ∧ 16 + 8 ≤ 8 * lenA.val := by decide

theorem witness_ExtractClosedForm :
    (1 ≤ 7 ∧ 7 ≤ 8 ∧ 17 + 7 ≤ 8 * lenA.val ∧ twoBytes 17 7 = false) ∧
      (1 ≤ 8 ∧ 8 ≤ 8 ∧ 9 + 8 ≤ 8 * lenA.val ∧ twoBytes 9 8 = true) := by decide

/-- Section 1.3 of the test vectors. -/
theorem witness_AdjacentReadsCompose :
    4 + 3 ≤ 8 ∧ 1 + 4 + 3 ≤ 8 * lenA.val ∧ extract lenA bufA 1 4 = .ok (14, 1 + 4) ∧
      extract lenA bufA (1 + 4) 3 = .ok (7, 1 + 4 + 3) :=
  ⟨by decide, by decide, rfl, rfl⟩

theorem witness_ReadBoundary :
    (1 ≤ 8 ∧ 8 ≤ 8 ∧ 8 ≤ 8 * lenA.val) ∧
      (1 ≤ 8 ∧ 8 ≤ 8 ∧ 8 ≤ 8 * (⟨1, by decide⟩ : ByteCount).val) := by decide

theorem witness_ReadOutcome :
    ((stateA (slotAt 16)).ready (slotAt 16) ∧ 1 ≤ (8#4).toNat ∧ (8#4).toNat ≤ 8 ∧
      (slotAt 16).reader.readPos.toNat + (8#4).toNat ≤ 8 * (stateA (slotAt 16)).nBytes.val) ∧
    ((0#4).toNat = 0 ∨ 9 ≤ (0#4).toNat) ∧ ((9#4).toNat = 0 ∨ 9 ≤ (9#4).toNat) ∧
    ((stateA (slotAt 17)).ready (slotAt 17) ∧ 1 ≤ (8#4).toNat ∧ (8#4).toNat ≤ 8 ∧
      8 * (stateA (slotAt 17)).nBytes.val < (slotAt 17).reader.readPos.toNat + (8#4).toNat) := by decide

theorem witness_SeekOutcome :
    (stateA (slotAt 3)).ready (slotAt 3) ∧ (24#28).toNat ≤ 8 * (stateA (slotAt 3)).nBytes.val ∧
      8 * (stateA (slotAt 3)).nBytes.val < (25#28).toNat := by decide

theorem witness_IllegalOutcome :
    (stateA (slotAt 7)).ready (slotAt 7) ∧ isIllegalWord 0x10000104 = true ∧ isIllegalWord 0 = true := by decide

theorem witness_FaultEntryRecords :
    (stateA (slotAt 24)).ready (slotAt 24) ∧
      ∃ t sl', exec (.read 1) (stateA (slotAt 24)) = .next t ∧ t.slots[0]? = some sl' ∧
        sl'.responses = (slotAt 24).responses ++ [.fault .readOverrun] :=
  ⟨by decide, _, _, rfl, rfl, by decide⟩

/-- Each branch of the priority is met: an illegal word, an illegal width that also overruns, an overrun alone, none; and
a SEEK at and past CAP. -/
theorem witness_FaultPriority :
    (stateA (slotAt 20)).ready (slotAt 20) ∧ isIllegalWord 0x10000019 = true ∧
      decode 0x10000009 = .read 9 ∧ decode 0x10000008 = .read 8 ∧ decode 0x10000004 = .read 4 ∧
      decode 0x20000018 = .seek 24 ∧ decode 0x20000019 = .seek 25 := by decide

theorem witness_HostChecksDecideFaults :
    (stateA (slotAt 16)).ready (slotAt 16) ∧
      (1 ≤ (8#4).toNat ∧ (8#4).toNat ≤ 8 ∧ 16 + (8#4).toNat ≤ capacity lenA) ∧ (24#28).toNat ≤ capacity lenA := by
  decide

theorem witness_OneResponsePerCommand : (stateA (slotAt 0)).ready (slotAt 0) := by decide

theorem witness_FaultedReaderPerformsNothing :
    (stateA faultedSlot).slots[(stateA faultedSlot).port]? = some faultedSlot ∧
      faultedSlot.reader.faulted = true := by decide

theorem witness_UnacceptedWordIsDropped :
    ∃ s : State, s.hostMoves = .command 0 0x10000001 :: [] ∧ s.slots[0]? = some faultedSlot ∧
      faultedSlot.reader.faulted = true :=
  ⟨{ stateA faultedSlot with hostMoves := [.command 0 0x10000001] }, by decide⟩

theorem witness_FaultStaysUntilReset :
    ∃ s t, s.slots[0]? = some faultedSlot ∧ faultedSlot.reader.faulted = true ∧ step s = .next t ∧
      (∀ rest, s.hostMoves ≠ .reset 0 :: rest) ∧ (∀ bytes rest, s.hostMoves ≠ .boot bytes :: rest) :=
  ⟨{ stateA faultedSlot with hostMoves := [.command 0 0x20000000] }, _, rfl, rfl, rfl, by simp, by simp⟩

/-- Two different Readers at one position of the same buffer. -/
theorem witness_ReadsAreIdempotent :
    (stateA (slotAt 5)).ready (slotAt 5) ∧
      ({ stateA (slotAt 5) with slots := [faultedSlot, slotAt 5], port := 1 } : State).ready (slotAt 5) := by decide

theorem witness_EmptyBufferAllowsOnlySeekZero :
    ({ stateA (slotAt 0) with nBytes := 0, buf := [] } : State).ready (slotAt 0) ∧ (0 : ByteCount).val = 0 := by decide

theorem witness_CommandFrame :
    (stateA (slotAt 0)).slots[0]? = some (slotAt 0) ∧
      (∃ t, exec (.read 8) (stateA (slotAt 0)) = .next t) ∧ (∃ t, exec (.seek 25) (stateA (slotAt 0)) = .next t) ∧
      ∃ t, exec (.illegal 0) (stateA (slotAt 0)) = .next t :=
  ⟨rfl, ⟨_, rfl⟩, ⟨_, rfl⟩, _, rfl⟩

theorem witness_OnlyReadAndSeekMoveTheCursor :
    (stateA (slotAt 16)).slots[0]? = some (slotAt 16) ∧ (slotAt 16).reader.readPos.toNat ≤ 8 * lenA.val ∧
      ∃ t, exec (.read 8) (stateA (slotAt 16)) = .next t :=
  ⟨rfl, by decide, _, rfl⟩

/-- One step of each of the four writers. -/
theorem witness_CursorWriters :
    ∀ m ∈ [HostMove.command 0 0x10000001, .command 0 0x20000018, .reset 0, .boot []],
      ∃ t sl', step { stateA (slotAt 1) with hostMoves := [m] } = .next t ∧ t.slots[0]? = some sl' ∧
        sl'.reader.readPos ≠ (slotAt 1).reader.readPos := by
  simp only [List.forall_mem_cons, List.not_mem_nil, false_implies, implies_true, and_true]
  exact ⟨⟨_, _, rfl, rfl, by decide⟩, ⟨_, _, rfl, rfl, by decide⟩, ⟨_, _, rfl, rfl, by decide⟩,
    _, _, rfl, rfl, by decide⟩

theorem witness_TraceObservesOnly :
    (stateA (slotAt 0)).slots[0]? = some (slotAt 0) ∧ (slotAt 0).reader.faulted = false ∧
      (stateA faultedSlot).slots[0]? = some faultedSlot ∧ faultedSlot.reader.faulted = true := by decide

theorem witness_StepRunsTheDecodedCommand :
    decode 0x10000007 = .read 7 ∧ WellFormed (.read 7) ∧
      ({ stateA (slotAt 5) with hostMoves := [.command 0 0x10000007] } : State).hostMoves =
        .command 0 0x10000007 :: [] := by decide

theorem witness_IdleHoldsTheState : (stateA (slotAt 5)).hostMoves = [] := rfl

theorem witness_EveryCommandCompletes :
    (stateA (slotAt 5)).port < (stateA (slotAt 5)).slots.length ∧
      (stateA (slotAt 5)).slots[0]? = some (slotAt 5) := by decide

theorem witness_RefusedOnlyWithoutReader :
    ({ stateA (slotAt 5) with port := 1 } : State).slots.length ≤ 1 := by decide

theorem witness_StepStopsOnlyOnHostErrors :
    ∃ s : State, s.hostMoves = .command 1 0x10000001 :: [] ∧ s.slots.length ≤ 1 :=
  ⟨{ stateA (slotAt 5) with hostMoves := [.command 1 0x10000001] }, by decide⟩

theorem witness_ResetValues :
    (∃ sl, sl ∈ State.reset.slots) ∧
      ∃ s : State, s.hostMoves = .reset 0 :: [] ∧ 0 < s.slots.length :=
  ⟨⟨Slot.reset, by decide⟩, { stateA faultedSlot with hostMoves := [.reset 0] }, by decide⟩

/-- Two Readers, one of them faulted, so that there is another one. -/
theorem witness_ResetTouchesOneReader :
    ∃ s : State, s.hostMoves = .reset 1 :: [] ∧ 1 < s.slots.length ∧ s.slots[0]? = some (slotAt 5) :=
  ⟨{ stateA (slotAt 5) with slots := [slotAt 5, faultedSlot], hostMoves := [.reset 1] }, by decide⟩

/-- The moves of a launch of Reader 0 with a command and a reset of Reader 1 between its own two words, READ 8 and an
illegal word. -/
def launchOf0 : List HostMove :=
  [.command 0 0x10000008, .command 1 0x10000004, .reset 1, .command 0 0x30000000]

/-- Two Readers over buffer A, Reader 0 faulted, before the reset that begins its launch. -/
def beforeLaunch : State := { stateA (slotAt 0) with slots := [faultedSlot, slotAt 5] }

/-- The same after that reset. -/
def afterReset : State := { stateA (slotAt 0) with slots := [slotAt 0, slotAt 5], hostMoves := launchOf0 }

theorem launchOf0_begins : step { beforeLaunch with hostMoves := launchMoves 0 launchOf0 } = .next afterReset := rfl

/-- WF_N, BUF_STABLE, SERIAL and RESET_CLEAN together. -/
theorem launchOf0_premises : LaunchPremises afterReset 0 [0x10000008, 0x30000000] launchOf0 where
  wfN := afterReset.wfN_all
  bufStable := (afterReset.bufStable_iff _).mpr (by simp [launchOf0])
  serial := by
    unfold serial
    decide
  resetClean := ⟨slotAt 0, rfl, Reader.reset_resetClean⟩

theorem test_serial_refuses_another_order : ¬serial 0 launchOf0 [0x30000000, 0x10000008] := by
  unfold serial
  decide

theorem test_bufStable_refuses_boot : ¬afterReset.bufStable [.boot []] := fun h => h.2 [] (by simp)

/-- State.reset meets the premises itself. -/
theorem test_reset_meets_launch_premises (cmds : List Word) :
    LaunchPremises State.reset 0 cmds (cmds.map (.command 0)) :=
  ⟨State.reset.wfN_all, State.reset.bufStable_commands 0 cmds, serial_commands 0 cmds,
    Slot.reset, rfl, Reader.reset_resetClean⟩

theorem witness_ResetEstablishesLaunchPremises :
    0 < beforeLaunch.slots.length ∧ beforeLaunch.bufStable launchOf0 ∧
      serial 0 launchOf0 [0x10000008, 0x30000000] :=
  ⟨by decide, (beforeLaunch.bufStable_iff _).mpr (by simp [launchOf0]), launchOf0_premises.serial⟩

theorem witness_BufferStableThroughALaunch :
    LaunchPremises afterReset 0 [0x10000008, 0x30000000] (launchOf0.take 2 ++ launchOf0.drop 2) ∧
      ∀ m ∈ launchOf0.take 2 ++ launchOf0.drop 2, m.namesReader afterReset.slots.length = true :=
  ⟨launchOf0_premises, by decide⟩

theorem witness_FirstReadStartsAtBitZero :
    step { beforeLaunch with hostMoves := launchMoves 0 launchOf0 } = .next afterReset ∧
      LaunchPremises afterReset 0 [0x10000008, 0x30000000] launchOf0 ∧
      (∀ m ∈ launchOf0, m.namesReader afterReset.slots.length = true) ∧ decode 0x10000008 = .read 8 ∧
      1 ≤ (8#4).toNat ∧ (8#4).toNat ≤ 8 ∧ (8#4).toNat ≤ 8 * beforeLaunch.nBytes.val :=
  ⟨launchOf0_begins, launchOf0_premises, by decide⟩

/-- Its last clause, a launch of one READ. -/
theorem witness_FirstReadStartsAtBitZero_alone :
    ∃ t, step { beforeLaunch with hostMoves := launchMoves 0 [.command 0 0x10000008] } = .next t ∧
      LaunchPremises t 0 [0x10000008] [.command 0 0x10000008] :=
  ⟨_, rfl, State.wfN_all _, State.bufStable_commands _ 0 [0x10000008], serial_commands 0 [0x10000008],
    Slot.reset, rfl, Reader.reset_resetClean⟩

theorem witness_BootInstallsTheBuffer :
    ∃ s : State, s.hostMoves = .boot [0xA5, 0x00, 0x3C] :: [] ∧
      [0xA5#8, 0x00#8, 0x3C#8].length ≤ 2 ^ 25 - 1 :=
  ⟨{ stateA faultedSlot with hostMoves := [.boot [0xA5, 0x00, 0x3C]] }, by decide⟩

/-- Program P6's moves over two Readers; the second state has only Reader 0. -/
theorem witness_InterleavingDoesNotMatter :
    ∃ s s' : State, s'.nBytes = s.nBytes ∧ s'.buf = s.buf ∧ s'.traceEn = s.traceEn ∧ 0 < s.slots.length ∧
      s'.slots[0]? = s.slots[0]? ∧
      ∀ m ∈ [HostMove.command 0 0x10000004, .command 1 0x10000008, .reset 0, .command 1 0x20000014],
        m.within s.slots.length = true :=
  ⟨{ stateA (slotAt 0) with slots := [slotAt 0, slotAt 0] }, stateA (slotAt 0), by decide⟩

theorem witness_FaultEndsTheRun :
    0 < (stateA (slotAt 24)).slots.length ∧
      ∃ t, runMoves (stateA (slotAt 24)) ([0x10000001].map (.command 0)) = .next t ∧
        ∃ sl, t.slots[0]? = some sl ∧ sl.reader.faulted = true :=
  ⟨by decide, _, rfl, _, rfl, rfl⟩

theorem witness_LaunchEndsGoodOrFaulted :
    step { beforeLaunch with hostMoves := launchMoves 0 launchOf0 } = .next afterReset ∧
      LaunchPremises afterReset 0 [0x10000008, 0x30000000] launchOf0 ∧
      ∀ m ∈ launchOf0, m.namesReader afterReset.slots.length = true :=
  ⟨launchOf0_begins, launchOf0_premises, by decide⟩

/-- Program P4: bits 4 to 15 of buffer A. -/
theorem witness_WideFieldFromTwoReads :
    (stateA (slotAt 4)).slots[0]? = some (slotAt 4) ∧ (slotAt 4).reader.faulted = false ∧
      decode 0x10000008 = .read 8 ∧ decode 0x10000004 = .read 4 ∧ 1 ≤ (8#4).toNat ∧ (8#4).toNat ≤ 8 ∧
      1 ≤ (4#4).toNat ∧ (4#4).toNat ≤ 8 ∧
      (slotAt 4).reader.readPos.toNat + (8#4).toNat + (4#4).toNat ≤ 8 * (stateA (slotAt 4)).nBytes.val := by decide

/-- Two Readers, one of them faulted with a record, and a READ pending for the other. -/
def twoReaders : State :=
  { stateA (slotAt 0) with slots := [slotAt 0, faultedSlot], hostMoves := [.command 0 0x10000001] }

theorem witness_StepKeepsInvariant : ∃ s t : State, s.Inv ∧ step s = .next t := by
  refine ⟨twoReaders, _, ⟨rfl, by decide, ?_⟩, rfl⟩
  intro sl h
  obtain rfl | rfl : sl = slotAt 0 ∨ sl = faultedSlot := by simpa [twoReaders] using h
  · exact ⟨by decide, rfl, fun _ => ⟨rfl, rfl, rfl⟩, fun h => absurd h (by decide)⟩
  · exact ⟨by decide, rfl, fun h => absurd h (by decide), fun _ =>
      ⟨rfl, .illegalCommand, rfl, show isIllegalWord 0x10000104 = true by decide⟩⟩

theorem witness_StepKeepsOutputsInvariant : ∃ s t : State, s.OutputsInv ∧ step s = .next t := by
  refine ⟨twoReaders, _, ?_, rfl⟩
  intro r sl h
  match r with
  | 0 =>
    obtain rfl : slotAt 0 = sl := by simpa [twoReaders] using h
    exact ⟨by simp [Slot.responsesAgree, slotAt, Reader.reset],
      by simp [Slot.traceAgrees, slotAt, twoReaders, stateA]⟩
  | 1 =>
    obtain rfl : faultedSlot = sl := by simpa [twoReaders] using h
    exact ⟨⟨[], .illegalCommand, rfl, rfl, by simp⟩, by simp [Slot.traceAgrees, faultedSlot, twoReaders, stateA]⟩
  | r + 2 => simp [twoReaders] at h

end Sys2Proof.Tests
end

section
/-!
PROOF. READ and SEEK at a ready Reader, said once per case in the terms of claims (`Performed`), and O32 from them: with
`N = 0` no legal READ fits, and 0 is the only position within the buffer.
-/

namespace Sys2Proof.Machine

/-! ### A performed command -/

/-- After a performed command the Reader at the port holds the new registers and has answered once more. -/
theorem Performed.slot_at_port {s t : State} {sl : Slot} {cmd : Word} {rd : Reader} {resp : Response}
    (hs : s.ready sl) (h : Performed s t sl cmd rd resp) :
    ∃ sl', t.slots[s.port]? = some sl' ∧ sl'.reader = rd ∧ sl'.responses = sl.responses ++ [resp] := by
  obtain ⟨hport, -⟩ := List.getElem?_eq_some_iff.mp hs.1
  subst h
  exact ⟨_, List.getElem?_set_self hport, rfl, rfl⟩

/-- An instruction that succeeds on the registers of a ready Reader is performed. -/
theorem exec_performed_of_ok {i : Instr} {s : State} {sl : Slot} {rd : Reader} {resp : Response} (hs : s.ready sl)
    (h : commandAct s.nBytes s.buf i sl.reader = .ok (rd, resp)) :
    ∃ t, exec i s = .next t ∧ Performed s t sl (encode i) rd resp :=
  ⟨_, (exec_eq_perform i s).trans (perform_of_ok hs h), performed_setSlot ..⟩

/-- An instruction that raises a violation at a ready Reader is performed as the fault entry (R103). -/
theorem exec_performed_of_violation {i : Instr} {s : State} {sl : Slot} {v : Violation} (hs : s.ready sl)
    (h : commandAct s.nBytes s.buf i sl.reader = .error (.violation v)) :
    ∃ t, exec i s = .next t ∧
      Performed s t sl (encode i) (faultRecord sl.reader v.cause.code (encode i)) (.fault v.cause) :=
  ⟨_, (exec_eq_perform i s).trans (perform_of_violation hs h), performed_setSlot ..⟩

/-! ### READ and SEEK case by case -/

/-- READ on the registers at an illegal width. -/
theorem readAct_of_width {nBytes : ByteCount} {buf : Memory} {n : Nat} (rd : Reader) (h : ¬(1 ≤ n ∧ n ≤ 8)) :
    readAct nBytes buf n rd = .error (.violation (.widthRange n)) := by
  simp only [readAct, extract_of_width h, bind, Except.bind]

/-- READ on the registers at a legal width that does not fit. -/
theorem readAct_of_overrun {nBytes : ByteCount} {buf : Memory} {n : Nat} (rd : Reader) (h : 1 ≤ n ∧ n ≤ 8)
    (hcap : ¬ rd.readPos.toNat + n ≤ capacity nBytes) :
    readAct nBytes buf n rd = .error (.violation (.readOverrun rd.readPos.toNat n)) := by
  simp only [readAct, cursorOperand, extract_of_overrun h hcap, bind, Except.bind]

/-- Setting the cursor to a SEEK's position is exact: both have 28 bits. -/
theorem Reader.setReadPos_toNat (rd : Reader) (pos : Pos) : rd.setReadPos pos.toNat = { rd with readPos := pos } := by
  simp only [Reader.setReadPos, BitVec.ofNat_toNat, BitVec.setWidth_eq]

/-- READ at an illegal width takes WIDTH_RANGE (R88). -/
theorem exec_read_of_width {s : State} {sl : Slot} {w : BitVec 4} (hs : s.ready sl)
    (h : ¬(1 ≤ w.toNat ∧ w.toNat ≤ 8)) :
    ∃ t, exec (.read w) s = .next t ∧ Performed s t sl (encode (.read w))
      (faultRecord sl.reader (Cause.code .widthRange) (encode (.read w))) (.fault .widthRange) :=
  exec_performed_of_violation (i := .read w) (v := .widthRange w.toNat) hs (readAct_of_width sl.reader h)

/-- READ at a legal width that does not fit takes READ_OVERRUN (R88). -/
theorem exec_read_of_overrun {s : State} {sl : Slot} {w : BitVec 4} (hs : s.ready sl)
    (h : 1 ≤ w.toNat ∧ w.toNat ≤ 8) (hcap : ¬ sl.reader.readPos.toNat + w.toNat ≤ capacity s.nBytes) :
    ∃ t, exec (.read w) s = .next t ∧ Performed s t sl (encode (.read w))
      (faultRecord sl.reader (Cause.code .readOverrun) (encode (.read w))) (.fault .readOverrun) :=
  exec_performed_of_violation (i := .read w) (v := .readOverrun sl.reader.readPos.toNat w.toNat) hs
    (readAct_of_overrun sl.reader h hcap)

/-- SEEK within the buffer moves the cursor and answers Ack (R91). -/
theorem exec_seek_of_le {s : State} {sl : Slot} {pos : BitVec 28} (hs : s.ready sl)
    (h : pos.toNat ≤ capacity s.nBytes) :
    ∃ t, exec (.seek pos) s = .next t ∧
      Performed s t sl (encode (.seek pos)) { sl.reader with readPos := pos } .ack := by
  rw [← Reader.setReadPos_toNat]
  exact exec_performed_of_ok hs (seekAct_of_le sl.reader h)

/-- SEEK past the end of the buffer takes SEEK_RANGE (R91). -/
theorem exec_seek_of_gt {s : State} {sl : Slot} {pos : BitVec 28} (hs : s.ready sl)
    (h : capacity s.nBytes < pos.toNat) :
    ∃ t, exec (.seek pos) s = .next t ∧ Performed s t sl (encode (.seek pos))
      (faultRecord sl.reader (Cause.code .seekRange) (encode (.seek pos))) (.fault .seekRange) :=
  exec_performed_of_violation (i := .seek pos) (v := .seekRange pos.toNat) hs (seekAct_of_gt sl.reader h)

/-! ### The empty buffer -/

/-- R7 for READ: over an empty buffer a legal width overruns, wherever the cursor is. -/
theorem exec_read_of_empty {s : State} {sl : Slot} (hs : s.ready sl) (hN : s.nBytes.val = 0) (w : BitVec 4) :
    ∃ t c, exec (.read w) s = .next t ∧ (c = .readOverrun ∨ c = .widthRange) ∧
      Performed s t sl (encode (.read w)) (faultRecord sl.reader (Cause.code c) (encode (.read w))) (.fault c) := by
  by_cases hw : 1 ≤ w.toNat ∧ w.toNat ≤ 8
  · have hcap : ¬ sl.reader.readPos.toNat + w.toNat ≤ capacity s.nBytes := by
      rw [capacity, hN]
      omega
    obtain ⟨t, ht, hperf⟩ := exec_read_of_overrun hs hw hcap
    exact ⟨t, .readOverrun, ht, .inl rfl, hperf⟩
  · obtain ⟨t, ht, hperf⟩ := exec_read_of_width hs hw
    exact ⟨t, .widthRange, ht, .inr rfl, hperf⟩

/-- SEEK answers Ack exactly within the buffer. -/
theorem exec_seek_ack_iff {s : State} {sl : Slot} (hs : s.ready sl) (pos : BitVec 28) :
    ∃ t sl', exec (.seek pos) s = .next t ∧ t.slots[s.port]? = some sl' ∧
      (sl'.responses = sl.responses ++ [.ack] ↔ pos.toNat ≤ capacity s.nBytes) := by
  rcases Nat.lt_or_ge (capacity s.nBytes) pos.toNat with hgt | hle
  · obtain ⟨t, ht, hperf⟩ := exec_seek_of_gt hs hgt
    obtain ⟨sl', hsl', -, hresp⟩ := hperf.slot_at_port hs
    exact ⟨t, sl', ht, hsl', iff_of_false (by simp [hresp]) (Nat.not_le.mpr hgt)⟩
  · obtain ⟨t, ht, hperf⟩ := exec_seek_of_le hs hle
    obtain ⟨sl', hsl', -, hresp⟩ := hperf.slot_at_port hs
    exact ⟨t, sl', ht, hsl', iff_of_true hresp hle⟩

/-- Settles O32: with `CAP = 0` every READ faults by `exec_read_of_empty`, and `pos ≤ CAP` is `pos = 0`. -/
theorem emptyBufferAllowsOnlySeekZero : Obligations.EmptyBufferAllowsOnlySeekZero := by
  intro s sl hs hN
  refine ⟨exec_read_of_empty hs hN, fun pos => ?_⟩
  have hpos : pos.toNat ≤ capacity s.nBytes ↔ pos = 0 := by
    rw [capacity, hN, Nat.mul_zero, Nat.le_zero, BitVec.toNat_eq, BitVec.ofNat_eq_ofNat, BitVec.toNat_zero]
  obtain ⟨t, sl', ht, hsl', hack⟩ := exec_seek_ack_iff hs pos
  exact ⟨t, sl', ht, hsl', hack.trans hpos⟩

end Sys2Proof.Machine
end

section
/-!
PROOF. What a command, and then a whole step, does with a Reader's registers (`CommandEffect`, `exec_next`,
`exec_of_ready`), the frame of a command (`exec_othersUnchanged`), and from these O50, O35, O54 and O42.
-/

namespace Sys2Proof.Machine

/-! ### The word a command records -/

/-- No bit of a word is lost by decoding it (R58, R60). -/
theorem encode_decode (cmd : Word) : encode (decode cmd) = cmd := by
  rw [decode_eq, ← BitVec.toNat_inj]
  split
  · rw [encode_read_toNat, widthField_toNat]
    omega
  · split
    · rw [encode_seek_toNat, posField_toNat]
      omega
    · rfl

theorem encode_of_decode_eq {cmd : Word} {i : Instr} (h : decode cmd = i) : encode i = cmd :=
  h ▸ encode_decode cmd

/-! ### What a command does with the registers -/

/-- CAP fits in a cursor register (R45). -/
theorem capacity_lt (nBytes : ByteCount) : capacity nBytes < 2 ^ 28 := by
  have := nBytes.isLt
  rw [capacity]
  omega

/-- A position within the buffer is stored in the cursor exactly. -/
theorem Reader.setReadPos_readPos_toNat {nBytes : ByteCount} {p : Nat} (rd : Reader) (h : p ≤ capacity nBytes) :
    (rd.setReadPos p).readPos.toNat = p := by
  rw [Reader.setReadPos_readPos, BitVec.toNat_ofNat]
  exact Nat.mod_eq_of_lt (Nat.lt_of_le_of_lt h (capacity_lt nBytes))

/-- READ on the registers where EXTRACT gives a value. -/
theorem readAct_of_extract {nBytes : ByteCount} {buf : Memory} {n newPos : Nat} {v : Byte} {rd : Reader}
    (h : extract nBytes buf rd.readPos.toNat n = .ok (v, newPos)) :
    readAct nBytes buf n rd = .ok (rd.setReadPos newPos, .data v) := by
  simp only [readAct, cursorOperand, h, bind, Except.bind, pure, Except.pure]

/-- The registers and the response of a command that a Reader with the registers `rd` accepts: the cases of R88, R91 and
R95, each under its condition. -/
inductive CommandEffect (nBytes : ByteCount) (buf : Memory) (rd : Reader) : Instr → Reader → Response → Prop where
  | read {w : BitVec 4} {v : Byte} (hw : 1 ≤ w.toNat ∧ w.toNat ≤ 8)
      (hcap : rd.readPos.toNat + w.toNat ≤ capacity nBytes)
      (hv : extract nBytes buf rd.readPos.toNat w.toNat = .ok (v, rd.readPos.toNat + w.toNat)) :
      CommandEffect nBytes buf rd (.read w) (rd.setReadPos (rd.readPos.toNat + w.toNat)) (.data v)
  | widthRange {w : BitVec 4} (hw : ¬(1 ≤ w.toNat ∧ w.toNat ≤ 8)) :
      CommandEffect nBytes buf rd (.read w)
        (faultRecord rd (Cause.code .widthRange) (encode (.read w))) (.fault .widthRange)
  | readOverrun {w : BitVec 4} (hw : 1 ≤ w.toNat ∧ w.toNat ≤ 8)
      (hcap : ¬ rd.readPos.toNat + w.toNat ≤ capacity nBytes) :
      CommandEffect nBytes buf rd (.read w)
        (faultRecord rd (Cause.code .readOverrun) (encode (.read w))) (.fault .readOverrun)
  | seek {pos : BitVec 28} (hcap : pos.toNat ≤ capacity nBytes) :
      CommandEffect nBytes buf rd (.seek pos) { rd with readPos := pos } .ack
  | seekRange {pos : BitVec 28} (hcap : capacity nBytes < pos.toNat) :
      CommandEffect nBytes buf rd (.seek pos)
        (faultRecord rd (Cause.code .seekRange) (encode (.seek pos))) (.fault .seekRange)
  | illegal {cmd : Word} :
      CommandEffect nBytes buf rd (.illegal cmd)
        (faultRecord rd (Cause.code .illegalCommand) (encode (.illegal cmd))) (.fault .illegalCommand)

/-- A ready Reader performs every command, with one of the effects above. -/
theorem exec_of_ready {s : State} {sl : Slot} (hs : s.ready sl) (i : Instr) :
    ∃ t rd resp, exec i s = .next t ∧ CommandEffect s.nBytes s.buf sl.reader i rd resp ∧
      Performed s t sl (encode i) rd resp := by
  cases i with
  | read w =>
    by_cases hw : 1 ≤ w.toNat ∧ w.toNat ≤ 8
    · by_cases hcap : sl.reader.readPos.toNat + w.toNat ≤ capacity s.nBytes
      · have hv := extract_eq (buf := s.buf) hw.1 hw.2 hcap
        obtain ⟨t, ht, hperf⟩ := exec_performed_of_ok (i := .read w) hs (readAct_of_extract hv)
        exact ⟨t, _, _, ht, .read hw hcap hv, hperf⟩
      · obtain ⟨t, ht, hperf⟩ := exec_read_of_overrun hs hw hcap
        exact ⟨t, _, _, ht, .readOverrun hw hcap, hperf⟩
    · obtain ⟨t, ht, hperf⟩ := exec_read_of_width hs hw
      exact ⟨t, _, _, ht, .widthRange hw, hperf⟩
  | seek pos =>
    rcases Nat.lt_or_ge (capacity s.nBytes) pos.toNat with hgt | hle
    · obtain ⟨t, ht, hperf⟩ := exec_seek_of_gt hs hgt
      exact ⟨t, _, _, ht, .seekRange hgt, hperf⟩
    · obtain ⟨t, ht, hperf⟩ := exec_seek_of_le hs hle
      exact ⟨t, _, _, ht, .seek hle, hperf⟩
  | illegal cmd =>
    obtain ⟨t, ht, hperf⟩ :=
      exec_performed_of_violation (i := .illegal cmd) (v := .illegalCommand cmd) hs rfl
    exact ⟨t, _, _, ht, .illegal, hperf⟩

/-- A faulted Reader lets a command pass (R105). -/
theorem exec_of_faulted {s : State} {sl : Slot} (h : s.slots[s.port]? = some sl) (hf : sl.reader.faulted = true)
    (i : Instr) : exec i s = .next s :=
  (exec_eq_perform i s).trans (perform_of_faulted h hf)

/-- Where the port names a Reader every command completes. -/
theorem exec_completes {s : State} (h : s.port < s.slots.length) (i : Instr) : ∃ t, exec i s = .next t := by
  have hsl : s.slots[s.port]? = some s.slots[s.port] := List.getElem?_eq_getElem h
  cases hf : s.slots[s.port].reader.faulted with
  | true => exact ⟨s, exec_of_faulted hsl hf i⟩
  | false =>
    obtain ⟨t, _, _, ht, _⟩ := exec_of_ready ⟨hsl, hf⟩ i
    exact ⟨t, ht⟩

/-- Everything a command can do when it answers a next state, case by case in the registers. -/
theorem exec_next {i : Instr} {s t : State} (h : exec i s = .next t) :
    ∃ sl, s.slots[s.port]? = some sl ∧
      ((sl.reader.faulted = true ∧ t = s) ∨
       (sl.reader.faulted = false ∧ ∃ rd resp, CommandEffect s.nBytes s.buf sl.reader i rd resp ∧
          Performed s t sl (encode i) rd resp)) := by
  rcases hsl : s.slots[s.port]? with _ | sl
  · simp [exec_eq_perform, perform_of_none hsl] at h
  refine ⟨sl, rfl, ?_⟩
  cases hf : sl.reader.faulted with
  | true => exact .inl ⟨rfl, by simpa [exec_of_faulted hsl hf i] using h.symm⟩
  | false =>
    obtain ⟨t', rd, resp, ht', heff, hperf⟩ := exec_of_ready ⟨hsl, hf⟩ i
    obtain rfl : t' = t := by simpa [ht'] using h
    exact .inr ⟨rfl, rd, resp, heff, hperf⟩

/-! ### The frame of a command -/

theorem OthersUnchanged.refl (s : State) : OthersUnchanged s s :=
  ⟨rfl, rfl, rfl, rfl, rfl, rfl, fun _ _ => rfl⟩

theorem Performed.othersUnchanged {s t : State} {sl : Slot} {cmd : Word} {rd : Reader} {resp : Response}
    (h : Performed s t sl cmd rd resp) : OthersUnchanged s t := by
  subst h
  exact ⟨rfl, rfl, rfl, rfl, rfl, List.length_set, fun _ hr => List.getElem?_set_ne (Ne.symm hr)⟩

/-- No command changes anything but the Reader at the port (R48, R94). -/
theorem exec_othersUnchanged {i : Instr} {s t : State} (h : exec i s = .next t) : OthersUnchanged s t := by
  obtain ⟨sl, _, ⟨_, rfl⟩ | ⟨_, rd, resp, _, hperf⟩⟩ := exec_next h
  · exact .refl t
  · exact hperf.othersUnchanged

/-! ### The invariant of one Reader -/

theorem Reader.reset_inv (nBytes : ByteCount) : Reader.reset.Inv nBytes :=
  ⟨Nat.zero_le _, rfl, fun _ => ⟨rfl, rfl, rfl⟩, fun h => nomatch h⟩

/-- A Reader that is not faulted keeps its invariant when its cursor moves within the buffer. -/
theorem Reader.Inv.moveCursor {nBytes : ByteCount} {rd : Reader} {pos : Pos} (h : rd.Inv nBytes)
    (hf : rd.faulted = false) (hpos : pos.toNat ≤ capacity nBytes) :
    ({ rd with readPos := pos } : Reader).Inv nBytes :=
  ⟨hpos, h.writePos, h.clean, fun ht => absurd ht (by simp [hf])⟩

/-- The fault entry keeps the invariant where the recorded word meets the condition of its cause (R98, R103). -/
theorem Reader.Inv.faultRecord {nBytes : ByteCount} {rd : Reader} {c : Cause} {cmd : Word} (h : rd.Inv nBytes)
    (hc : causeCondition nBytes rd.readPos.toNat cmd c) : (faultRecord rd c.code cmd).Inv nBytes :=
  ⟨h.cursor, h.writePos, fun ht => (nomatch ht), fun _ => ⟨rfl, c, rfl, hc⟩⟩

/-- The command of any word keeps the Reader's invariant. -/
theorem CommandEffect.inv {nBytes : ByteCount} {buf : Memory} {rd rd' : Reader} {cmd : Word} {i : Instr}
    {resp : Response} (heff : CommandEffect nBytes buf rd i rd' resp) (hdec : decode cmd = i) (h : rd.Inv nBytes)
    (hf : rd.faulted = false) : rd'.Inv nBytes := by
  have henc := encode_of_decode_eq hdec
  cases heff with
  | read hw hcap _ => exact h.moveCursor hf (Nat.le_trans (Nat.le_of_eq (rd.setReadPos_readPos_toNat hcap)) hcap)
  | seek hcap => exact h.moveCursor hf hcap
  | @widthRange w hw =>
    rw [henc]
    exact h.faultRecord ⟨w, hdec, by omega⟩
  | @readOverrun w hw hcap =>
    rw [henc]
    exact h.faultRecord ⟨w, hdec, hw.1, hw.2, Nat.lt_of_not_le hcap⟩
  | @seekRange pos hcap =>
    rw [henc]
    exact h.faultRecord ⟨pos, hdec, hcap⟩
  | @illegal cmd' =>
    obtain rfl : cmd' = cmd := henc
    exact h.faultRecord (Laws.DecodedWellFormed.illegal cmd' cmd' hdec)

/-! ### The invariant of the machine -/

theorem State.Inv.setSlot {s : State} {sl : Slot} (h : s.Inv) (r : Nat) (hsl : sl.reader.Inv s.nBytes) :
    (s.setSlot r sl).Inv where
  buffer := h.buffer
  port := (s.setSlot_length r sl).symm ▸ h.port
  readers := fun sl' hsl' => by
    rcases List.mem_or_eq_of_mem_set hsl' with hmem | rfl
    · exact h.readers sl' hmem
    · exact hsl

/-- The host's side is free, so long as the port names a Reader. -/
theorem State.Inv.present {s : State} {r : Nat} (h : s.Inv) (hr : r < s.slots.length) (rest : List HostMove) :
    (s.present r rest).Inv :=
  ⟨h.buffer, hr, h.readers⟩

theorem Performed.inv {s t : State} {sl : Slot} {cmd : Word} {rd : Reader} {resp : Response}
    (hperf : Performed s t sl cmd rd resp) (h : s.Inv) (hrd : rd.Inv s.nBytes) : t.Inv := by
  subst hperf
  exact h.setSlot s.port hrd

/-- The command of any word keeps the machine's invariant. -/
theorem exec_decode_inv {cmd : Word} {s t : State} (h : s.Inv) (ht : exec (decode cmd) s = .next t) : t.Inv := by
  obtain ⟨sl, hsl, ⟨_, rfl⟩ | ⟨hf, rd, resp, heff, hperf⟩⟩ := exec_next ht
  · exact h
  · exact hperf.inv h (heff.inv rfl (h.readers sl (List.mem_of_getElem? hsl)) hf)

/-- A new buffer of legal length establishes the invariant but for the port, which it leaves. -/
theorem boot_inv {s : State} {bytes : List Byte} (hlen : bytes.length < 2 ^ 25) (rest : List HostMove)
    (hport : s.port < s.slots.length) :
    State.Inv { s with
      nBytes := ⟨bytes.length, hlen⟩
      buf := Memory.ofBytes bytes
      slots := s.slots.map (fun _ => Slot.reset)
      hostMoves := rest } where
  buffer := Memory.ofBytes_wf bytes
  port := by simpa using hport
  readers := fun sl hsl => by
    obtain ⟨_, _, rfl⟩ := List.mem_map.mp hsl
    exact Reader.reset_inv _

/-- Settles O50: of the moves a step can make, a command keeps the invariant by `exec_decode_inv`, and a reset and a new
buffer put the reset Reader, which meets it, in place. -/
theorem stepKeepsInvariant : Obligations.StepKeepsInvariant := by
  intro s t h ht
  obtain ⟨_, rfl⟩ | ⟨r, cmd, rest, _, hexec⟩ | ⟨r, rest, _, _, rfl⟩ | ⟨bytes, rest, _, hlen, rfl⟩ := step_next ht
  · exact h
  · obtain ⟨sl, hsl, _⟩ := exec_next hexec
    obtain ⟨hr, _⟩ := List.getElem?_eq_some_iff.mp hsl
    exact exec_decode_inv (h.present hr rest) hexec
  · exact State.Inv.setSlot (s := { s with hostMoves := rest }) ⟨h.buffer, h.port, h.readers⟩ r
      (Reader.reset_inv s.nBytes)
  · exact boot_inv hlen rest h.port

/-! ### The writers of the cursor -/

/-- A command changes the cursor only by succeeding: READ advances it by its width, SEEK puts its operand. -/
theorem CommandEffect.cursor_written {nBytes : ByteCount} {buf : Memory} {rd rd' : Reader} {i : Instr}
    {resp : Response} (heff : CommandEffect nBytes buf rd i rd' resp) (hne : rd'.readPos ≠ rd.readPos) :
    rd'.faulted = rd.faulted ∧
      ((∃ w, i = .read w ∧ rd'.readPos.toNat = rd.readPos.toNat + w.toNat) ∨
       (∃ pos, i = .seek pos ∧ rd'.readPos = pos)) := by
  cases heff with
  | read hw hcap _ => exact ⟨rfl, .inl ⟨_, rfl, rd.setReadPos_readPos_toNat hcap⟩⟩
  | seek hcap => exact ⟨rfl, .inr ⟨_, rfl, rfl⟩⟩
  | widthRange | readOverrun | seekRange | illegal => exact absurd rfl hne

/-- A Reader whose registers a command changes is the one at the port, and is not faulted. -/
theorem exec_changed_reader {i : Instr} {s t : State} {r : Nat} {sl sl' : Slot} (h : exec i s = .next t)
    (hsl : s.slots[r]? = some sl) (hsl' : t.slots[r]? = some sl') (hne : sl'.reader ≠ sl.reader) :
    r = s.port ∧ sl.reader.faulted = false ∧
      ∃ resp, CommandEffect s.nBytes s.buf sl.reader i sl'.reader resp := by
  by_cases hr : r = s.port
  · subst hr
    obtain ⟨sl₀, hsl₀, hcases⟩ := exec_next h
    obtain rfl : sl = sl₀ := Option.some.inj (hsl.symm.trans hsl₀)
    obtain ⟨_, rfl⟩ | ⟨hf, rd, resp, heff, hperf⟩ := hcases
    · obtain rfl : sl = sl' := Option.some.inj (hsl.symm.trans hsl')
      exact absurd rfl hne
    · obtain ⟨sl₁, hsl₁, rfl, _⟩ := hperf.slot_at_port ⟨hsl, hf⟩
      obtain rfl : sl' = sl₁ := Option.some.inj (hsl'.symm.trans hsl₁)
      exact ⟨rfl, hf, resp, heff⟩
  · have hsame := (exec_othersUnchanged h).others r hr
    obtain rfl : sl' = sl := Option.some.inj (hsl'.symm.trans (hsame.trans hsl))
    exact absurd rfl hne

/-- Settles O35: a command moves the cursor by `CommandEffect.cursor_written` only, at the Reader it is presented to; the
other two moves that change a Reader leave the reset one. -/
theorem cursorWriters : Obligations.CursorWriters := by
  intro s t r sl sl' ht hsl hsl' hne
  obtain ⟨_, rfl⟩ | ⟨r', cmd, rest, hm, hexec⟩ | ⟨r', rest, hm, hr', rfl⟩ | ⟨bytes, rest, hm, hlen, rfl⟩ :=
    step_next ht
  · obtain rfl : sl = sl' := Option.some.inj (hsl.symm.trans hsl')
    exact absurd rfl hne
  · obtain ⟨rfl, hf, resp, heff⟩ :=
      exec_changed_reader hexec hsl hsl' fun heq => hne (congrArg Reader.readPos heq)
    obtain ⟨hfaulted, ⟨w, hw, hpos⟩ | ⟨pos, hpos, hval⟩⟩ := heff.cursor_written hne
    · exact .inl ⟨cmd, rest, w, hm, hw, hpos, hfaulted.trans hf⟩
    · exact .inr (.inl ⟨cmd, rest, pos, hm, hpos, hval, hfaulted.trans hf⟩)
  · by_cases hr : r = r'
    · subst hr
      obtain rfl : Slot.reset = sl' :=
        Option.some.inj ((State.setSlot_same { s with hostMoves := rest } r _ hr').symm.trans hsl')
      exact .inr (.inr (.inl ⟨rest, hm, rfl⟩))
    · have hsame := State.setSlot_other { s with hostMoves := rest } r' r Slot.reset hr
      obtain rfl : sl' = sl := Option.some.inj (hsl'.symm.trans (hsame.trans hsl))
      exact absurd rfl hne
  · obtain rfl : Slot.reset = sl' := by
      simpa only [List.getElem?_map, hsl, Option.map_some, Option.some.injEq] using hsl'
    exact .inr (.inr (.inr ⟨bytes, rest, hm, rfl⟩))

/-! ### Resets and runs -/

/-- A step at the reset input of an existing Reader puts the reset Reader in its place and changes nothing else. -/
theorem step_reset {s : State} {r : Nat} {rest : List HostMove} (hm : s.hostMoves = .reset r :: rest)
    (hr : r < s.slots.length) :
    step s = .next (State.setSlot { s with hostMoves := rest } r Slot.reset) := by
  simp [step, hm, resetReader, hr]

/-- A move to an existing Reader completes in one step, is used up, and keeps the buffer and the number of Readers. -/
theorem step_of_within {s : State} {m : HostMove} {rest : List HostMove} (hm : s.hostMoves = m :: rest)
    (hw : m.within s.slots.length = true) :
    ∃ t, step s = .next t ∧ t.hostMoves = rest ∧ t.nBytes = s.nBytes ∧ t.buf = s.buf ∧
      t.slots.length = s.slots.length := by
  cases m with
  | command r cmd =>
    obtain ⟨t, ht⟩ := exec_completes (s := s.present r rest) (of_decide_eq_true hw) (decode cmd)
    have hframe := exec_othersUnchanged ht
    exact ⟨t, by simpa [step, hm] using ht, hframe.hostMoves, hframe.nBytes, hframe.buf, hframe.count⟩
  | reset r => exact ⟨_, step_reset hm (of_decide_eq_true hw), rfl, rfl, rfl, State.setSlot_length _ r _⟩
  | boot bytes => exact nomatch hw

/-- A run of moves to existing Readers completes, one step each, and keeps the buffer. -/
theorem runMoves_of_within {moves : List HostMove} {s : State}
    (hw : ∀ m ∈ moves, m.within s.slots.length = true) :
    ∃ t, runMoves s moves = .next t ∧ t.nBytes = s.nBytes ∧ t.buf = s.buf := by
  induction moves generalizing s with
  | nil => exact ⟨_, runMoves_nil s, rfl, rfl⟩
  | cons m moves ih =>
    rw [List.forall_mem_cons] at hw
    obtain ⟨t, ht, hmoves, hN, hbuf, hcount⟩ := step_of_within (s := { s with hostMoves := m :: moves }) rfl hw.1
    obtain ⟨u, hu, hN', hbuf'⟩ := ih (s := t) (hcount ▸ hw.2)
    exact ⟨u, (runMoves_cons_of_next ht hmoves).trans hu, hN'.trans hN, hbuf'.trans hbuf⟩

/-- Settles O54: BUF_STABLE leaves no new buffer among the moves, and every other move keeps BUF and N. -/
theorem bufferStableThroughALaunch : Obligations.BufferStableThroughALaunch := by
  intro s r cmds before after hlaunch hnames
  have hwithin := within_of_namesReader hlaunch.bufStable.2 hnames
  obtain ⟨t, ht, hN, hbuf⟩ := runMoves_of_within fun m hm => hwithin m (List.mem_append_left after hm)
  exact ⟨t, ht, hN, hbuf, fun i => by rw [hN, hbuf]⟩

/-- Settles O42: every Reader of State.reset and the Reader that a reset step leaves is the reset one. -/
theorem resetValues : Obligations.ResetValues := by
  refine ⟨fun sl hsl => ?_, fun s r rest hm hr => ?_⟩
  · obtain rfl : sl = Slot.reset := List.eq_of_mem_replicate hsl
    exact Reader.reset_resetClean
  · exact ⟨_, Slot.reset, step_reset hm hr, State.setSlot_same _ r _ hr, Reader.reset_resetClean, rfl, rfl⟩

end Sys2Proof.Machine
end

section
/-!
PROOF. EXTRACT bit by bit: the bits that SELECT's mask keeps, where the two parts of a field lie (R79), hence each bit
of the value; and O11, the little-endian packing of those bits.
-/

namespace Sys2Proof.Machine

/-- R69: the mask has exactly the bits of the inclusive range. -/
theorem selMask_getLsbD {start stop : Nat} (h : stop ≤ 7) (k : Nat) :
    (selMask start stop).getLsbD k = decide (start ≤ k ∧ k ≤ stop) := by
  have hones (j : Nat) : (0xFF#8).getLsbD j = decide (j < 8) := BitVec.getLsbD_allOnes (v := 8)
  simp only [selMask, BitVec.getLsbD_and, BitVec.getLsbD_shiftLeft, BitVec.getLsbD_ushiftRight, hones]
  rw [Bool.eq_iff_iff]
  simp only [Bool.and_eq_true, Bool.not_eq_true', decide_eq_true_eq, decide_eq_false_iff_not]
  omega

/-- Step 5 of R75 gives the first byte's bits from the field's start on, `countFirst` of them. -/
theorem firstBits_getLsbD {p n : Nat} (h1 : 1 ≤ n) (h8 : n ≤ 8) (byte : Byte) (j : Nat) :
    (firstBits byte p n).getLsbD j = (byte.getLsbD (localStart p + j) && decide (j < countFirst p n)) := by
  by_cases hj : localStart p + j < 8
  · have hstop : (if twoBytes p n then 7 else localEnd p n) ≤ 7 := by
      simp only [localEnd]
      split <;> omega
    have hrange : localStart p + j ≤ (if twoBytes p n then 7 else localEnd p n) ↔ j < countFirst p n := by
      simp only [twoBytes_iff, countFirst, localStart, localEnd] at *
      split <;> omega
    simp only [firstBits, BitVec.getLsbD_ushiftRight, BitVec.getLsbD_and, selMask_getLsbD hstop, hrange,
      Nat.le_add_right, true_and]
  · simp [firstBits, BitVec.getLsbD_of_ge _ _ (Nat.le_of_not_lt hj)]

/-- Step 6 of R75 gives the last byte's low bits, from bit `countFirst` of the value up to bit `n - 1`. -/
theorem secondBits_getLsbD {p n : Nat} (h1 : 1 ≤ n) (h8 : n ≤ 8) (byte : Byte) (j : Nat) :
    (secondBits byte p n).getLsbD j =
      (byte.getLsbD (j - countFirst p n) && decide (countFirst p n ≤ j ∧ j < n)) := by
  by_cases ht : twoBytes p n = true
  · have hend : localEnd p n ≤ 7 := by
      simp only [localEnd]
      omega
    have hrange : (j < 8 ∧ ¬j < countFirst p n) ∧ j - countFirst p n ≤ localEnd p n ↔
        countFirst p n ≤ j ∧ j < n := by
      simp only [twoBytes_iff, countFirst, localStart, localEnd] at *
      omega
    simp only [secondBits, ht, if_true, BitVec.getLsbD_shiftLeft, BitVec.getLsbD_and, selMask_getLsbD hend,
      Nat.zero_le, true_and, ← decide_eq_decide.mpr hrange, Bool.decide_and, decide_not]
    ac_rfl
  · have hcount : countFirst p n = n := by
      simp only [twoBytes_iff, countFirst, localStart, localEnd] at *
      omega
    simp [secondBits, ht, hcount]

/-- A buffer bit is the bit of the byte that holds it (R13). -/
theorem bitAt_eq (buf : Memory) (q : Nat) : bitAt buf q = ((buf.read (q / 8)).getLsbD (q % 8)).toNat := by
  rw [bitAt, BitVec.getLsbD, Nat.toNat_testBit, Nat.shiftRight_eq_div_pow, Nat.and_one_is_mod]

/-- R36 as a reading of bits: a number whose bits are the buffer's is the packed field, as far as they go. -/
theorem mod_two_pow_eq_packedField {buf : Memory} {p n x : Nat}
    (h : ∀ j, j < n → (x.testBit j).toNat = bitAt buf (p + j)) : x % 2 ^ n = packedField buf p n := by
  induction n with
  | zero => rw [Nat.pow_zero, Nat.mod_one, packedField]
  | succ n ih =>
    rw [Nat.mod_pow_succ, ih fun j hj => h j (Nat.lt_succ_of_lt hj), ← Nat.toNat_testBit, h n (Nat.lt_succ_self n),
      Nat.mul_comm, packedField]

/-- Each bit of what EXTRACT gives past its checks: the buffer's below `n`, 0 from there up. -/
theorem extractedBits_getLsbD {p n : Nat} (buf : Memory) (h1 : 1 ≤ n) (h8 : n ≤ 8) (j : Nat) :
    (firstBits (buf.read (byteFirst p)) p n ||| secondBits (buf.read (byteLast p n)) p n).getLsbD j =
      ((buf.read ((p + j) / 8)).getLsbD ((p + j) % 8) && decide (j < n)) := by
  rw [BitVec.getLsbD_or, firstBits_getLsbD h1 h8, secondBits_getLsbD h1 h8]
  by_cases hfirst : j < countFirst p n
  · have hbyte : byteFirst p = (p + j) / 8 := by
      simp only [countFirst, localStart, byteFirst] at *
      omega
    have hbit : localStart p + j = (p + j) % 8 := by
      simp only [countFirst, localStart] at *
      omega
    have hj : j < n := by
      simp only [countFirst] at hfirst
      omega
    simp [hbyte, hbit, hfirst, hj, Nat.not_le.mpr hfirst]
  · by_cases hj : j < n
    · have hbyte : byteLast p n = (p + j) / 8 := by
        simp only [countFirst, localStart, byteLast] at *
        omega
      have hbit : j - countFirst p n = (p + j) % 8 := by
        simp only [countFirst, localStart] at *
        omega
      simp [hbyte, hbit, hfirst, hj, Nat.not_lt.mp hfirst]
    · simp [hfirst, hj]

/-- Settles O11: the bits of the value by `extractedBits_getLsbD`; the bound and the sum are read off them. -/
theorem extractPacksLittleEndian : Obligations.ExtractPacksLittleEndian := by
  intro nBytes buf p n h1 h8 hcap
  have hbits := extractedBits_getLsbD (p := p) buf h1 h8
  refine ⟨_, extract_eq h1 h8 hcap, ?_⟩
  generalize firstBits (buf.read (byteFirst p)) p n ||| secondBits (buf.read (byteLast p n)) p n = v at hbits ⊢
  have hlow (j : Nat) (hj : j < n) : (v.getLsbD j).toNat = bitAt buf (p + j) := by
    rw [hbits, bitAt_eq, decide_eq_true hj, Bool.and_true]
  have hhigh (j : Nat) (hj : n ≤ j) : v.getLsbD j = false := by
    rw [hbits, decide_eq_false (Nat.not_lt.mpr hj), Bool.and_false]
  have hlt : v.toNat < 2 ^ n := Nat.lt_pow_two_of_testBit v.toNat hhigh
  exact ⟨(Nat.mod_eq_of_lt hlt).symm.trans (mod_two_pow_eq_packedField hlow), hlt, hlow, hhigh⟩

end Sys2Proof.Machine
end

section
/-!
PROOF. The frame of a command and the independence of Readers: what a command keeps of its own Reader (O33), what a
READ's response depends on (O31), and what the moves to one Reader depend on (O46).
-/

namespace Sys2Proof.Machine

/-! ### The frame of a command -/

/-- What a command that a Reader accepts keeps of its registers: all but the cursor where it succeeds (R94), both
cursors where it faults (R104). -/
theorem CommandEffect.registers_kept {nBytes : ByteCount} {buf : Memory} {rd rd' : Reader} {i : Instr}
    {resp : Response} (heff : CommandEffect nBytes buf rd i rd' resp) (hf : rd.faulted = false) :
    rd'.writePos = rd.writePos ∧
      (rd'.faulted = rd.faulted → rd' = { rd with readPos := rd'.readPos }) ∧
      (rd'.faulted = true → rd'.readPos = rd.readPos) := by
  cases heff with
  | read | seek => exact ⟨rfl, fun _ => rfl, fun ht => absurd (hf.symm.trans ht) Bool.noConfusion⟩
  | widthRange | readOverrun | seekRange | illegal =>
    exact ⟨rfl, fun heq => absurd (heq.trans hf) Bool.noConfusion, fun _ => rfl⟩

/-- A performed command adds one response, and at most one event, to what its Reader has put out. -/
theorem Performed.outputs_grow {s t : State} {sl : Slot} {cmd : Word} {rd : Reader} {resp : Response}
    (hs : s.ready sl) (h : Performed s t sl cmd rd resp) :
    ∃ sl', t.slots[s.port]? = some sl' ∧ sl'.reader = rd ∧
      sl.responses <+: sl'.responses ∧ sl'.responses.length ≤ sl.responses.length + 1 ∧
      sl.trace <+: sl'.trace ∧ sl'.trace.length ≤ sl.trace.length + 1 := by
  obtain ⟨hport, -⟩ := List.getElem?_eq_some_iff.mp hs.1
  subst h
  refine ⟨_, List.getElem?_set_self hport, rfl, ⟨_, rfl⟩, by simp, ⟨_, rfl⟩, ?_⟩
  cases s.traceEn <;> simp

/-- Settles O33: outside the Reader at the port by `exec_othersUnchanged`; a faulted Reader stays as it is, and a ready
one keeps what `CommandEffect.registers_kept` and `Performed.outputs_grow` say. -/
theorem commandFrame : Obligations.CommandFrame := by
  intro i s t sl hsl ht
  have hothers := exec_othersUnchanged ht
  refine ⟨hothers, fun k => by rw [hothers.nBytes, hothers.buf], ?_⟩
  obtain ⟨sl₀, hsl₀, hcases⟩ := exec_next ht
  obtain rfl : sl = sl₀ := Option.some.inj (hsl.symm.trans hsl₀)
  obtain ⟨_, rfl⟩ | ⟨hf, rd, resp, heff, hperf⟩ := hcases
  · exact ⟨sl, hsl, rfl, fun _ => rfl, fun _ => rfl, ⟨[], List.append_nil _⟩, Nat.le_succ _,
      ⟨[], List.append_nil _⟩, Nat.le_succ _⟩
  · obtain ⟨sl', hsl', rfl, houtputs⟩ := hperf.outputs_grow ⟨hsl, hf⟩
    obtain ⟨hwrite, hkept, hcursor⟩ := heff.registers_kept hf
    exact ⟨sl', hsl', hwrite, hkept, hcursor, houtputs⟩

/-! ### What a READ depends on -/

/-- R44: N, BUF, the cursor and the width decide a READ's response, whatever else the state holds. -/
theorem exec_read_response (nBytes : ByteCount) (buf : Memory) (p : Pos) (w : BitVec 4) :
    ∃ resp, ∀ (s : State) (sl : Slot), s.ready sl → s.nBytes = nBytes → s.buf = buf → sl.reader.readPos = p →
      ∃ t rd, exec (.read w) s = .next t ∧ Performed s t sl (encode (.read w)) rd resp := by
  by_cases hw : 1 ≤ w.toNat ∧ w.toNat ≤ 8
  · by_cases hcap : p.toNat + w.toNat ≤ capacity nBytes
    · obtain ⟨v, hv⟩ : ∃ v, extract nBytes buf p.toNat w.toNat = .ok (v, p.toNat + w.toNat) :=
        ⟨_, extract_eq hw.1 hw.2 hcap⟩
      refine ⟨.data v, fun s sl hs hN hbuf hp => ?_⟩
      subst hN hbuf hp
      obtain ⟨t, ht, hperf⟩ := exec_performed_of_ok (i := .read w) hs (readAct_of_extract hv)
      exact ⟨t, _, ht, hperf⟩
    · refine ⟨.fault .readOverrun, fun s sl hs hN _ hp => ?_⟩
      subst hN hp
      obtain ⟨t, ht, hperf⟩ := exec_read_of_overrun hs hw hcap
      exact ⟨t, _, ht, hperf⟩
  · refine ⟨.fault .widthRange, fun s sl hs _ _ _ => ?_⟩
    obtain ⟨t, ht, hperf⟩ := exec_read_of_width hs hw
    exact ⟨t, _, ht, hperf⟩

/-- Settles O31: both READs give the response of `exec_read_response`, and a performed command keeps BUF and N. -/
theorem readsAreIdempotent : Obligations.ReadsAreIdempotent := by
  intro s s' sl sl' w hs hs' hN hbuf hp
  obtain ⟨resp, hread⟩ := exec_read_response s.nBytes s.buf sl.reader.readPos w
  obtain ⟨t, rd, ht, hperf⟩ := hread s sl hs rfl rfl rfl
  obtain ⟨t', rd', ht', hperf'⟩ := hread s' sl' hs' hN hbuf hp
  obtain ⟨u, hu, -, hresp⟩ := hperf.slot_at_port hs
  obtain ⟨u', hu', -, hresp'⟩ := hperf'.slot_at_port hs'
  have hothers := hperf.othersUnchanged
  exact ⟨t, t', u, u', resp, ht, ht', hu, hu', hresp, hresp', fun k => by rw [hothers.nBytes, hothers.buf]⟩

/-! ### What the moves to one Reader depend on -/

/-- Everything that the further course of Reader `r` depends on (R48): N, BUF, TRACE_EN and the Reader with its outputs. -/
def State.view (s : State) (r : Nat) : ByteCount × Memory × Bool × Option Slot :=
  (s.nBytes, s.buf, s.traceEn, s.slots[r]?)

theorem State.view_eq_iff {s s' : State} {r : Nat} :
    s'.view r = s.view r ↔
      s'.nBytes = s.nBytes ∧ s'.buf = s.buf ∧ s'.traceEn = s.traceEn ∧ s'.slots[r]? = s.slots[r]? := by
  simp only [State.view, Prod.mk.injEq]

theorem State.view_setSlot_same {s s' : State} {r : Nat} (h : s'.view r = s.view r) (sl : Slot) :
    (s'.setSlot r sl).view r = (s.setSlot r sl).view r := by
  obtain ⟨hN, hbuf, htrace, hslot⟩ := State.view_eq_iff.mp h
  exact State.view_eq_iff.mpr ⟨hN, hbuf, htrace, by simp only [setSlot_slots, List.getElem?_set_self', hslot]⟩

theorem State.view_setSlot_other (s : State) {r r' : Nat} (sl : Slot) (h : r ≠ r') :
    (s.setSlot r' sl).view r = s.view r :=
  State.view_eq_iff.mpr ⟨rfl, rfl, rfl, State.setSlot_other s r' r sl h⟩

theorem OthersUnchanged.view {s t : State} {r : Nat} (h : OthersUnchanged s t) (hr : r ≠ s.port) :
    t.view r = s.view r :=
  State.view_eq_iff.mpr ⟨h.nBytes, h.buf, h.traceEn, h.others r hr⟩

/-- A command leaves the same view of its Reader in all states with the same view of it. -/
theorem exec_view {i : Instr} {s s' t : State} {r : Nat} (hport : s.port = r) (hport' : s'.port = r)
    (hview : s'.view r = s.view r) (ht : exec i s = .next t) :
    ∃ t', exec i s' = .next t' ∧ t'.view r = t.view r := by
  obtain ⟨hN, hbuf, htrace, hslot⟩ := State.view_eq_iff.mp hview
  rw [exec_eq_perform] at ht
  rw [exec_eq_perform, hN, hbuf]
  obtain ⟨sl, hsl, hcases⟩ := perform_next ht
  have hsl' : s'.slots[s'.port]? = some sl := by rw [hport', hslot, ← hport, hsl]
  rw [hport] at hcases
  obtain ⟨hf, rfl⟩ | ⟨hf, rd, resp, hact, rfl⟩ | ⟨hf, v, hact, rfl⟩ := hcases
  · exact ⟨s', perform_of_faulted hsl' hf, hview⟩
  · refine ⟨_, perform_of_ok ⟨hsl', hf⟩ hact, ?_⟩
    rw [hport', htrace]
    exact State.view_setSlot_same hview _
  · refine ⟨_, perform_of_violation ⟨hsl', hf⟩ hact, ?_⟩
    rw [hport', htrace]
    exact State.view_setSlot_same hview _

/-- A move to another Reader leaves the view of Reader `r` as it was. -/
theorem step_view_of_not_concerns {s t : State} {r : Nat} {m : HostMove} {rest : List HostMove}
    (hm : s.hostMoves = m :: rest) (hc : ¬m.concerns r = true) (ht : step s = .next t) : t.view r = s.view r := by
  cases m with
  | command r' cmd =>
    have hexec : exec (decode cmd) (s.present r' rest) = .next t := by simpa only [step, hm] using ht
    exact (exec_othersUnchanged hexec).view fun hr : r = r' => hc (beq_iff_eq.mpr hr.symm)
  | reset r' =>
    obtain ⟨-, rfl⟩ := resetReader_next (by simpa only [step, hm] using ht)
    exact State.view_setSlot_other { s with hostMoves := rest } _ fun hr => hc (beq_iff_eq.mpr hr.symm)
  | boot bytes => exact absurd rfl hc

/-- A move to Reader `r` leaves the same view of it in all states with the same view of it. -/
theorem step_view_of_concerns {s s' t : State} {r : Nat} {m : HostMove} {rest rest' : List HostMove}
    (hm : s.hostMoves = m :: rest) (hm' : s'.hostMoves = m :: rest') (hw : m.within s.slots.length = true)
    (hc : m.concerns r = true) (hview : s'.view r = s.view r) (ht : step s = .next t) :
    ∃ t', step s' = .next t' ∧ t'.hostMoves = rest' ∧ t'.view r = t.view r := by
  cases m with
  | command r' cmd =>
    obtain rfl : r' = r := beq_iff_eq.mp hc
    have hexec : exec (decode cmd) (s.present r' rest) = .next t := by simpa only [step, hm] using ht
    obtain ⟨t', ht', hview'⟩ := exec_view (s := s.present r' rest) (s' := s'.present r' rest') rfl rfl hview hexec
    exact ⟨t', by simpa only [step, hm'] using ht', (exec_othersUnchanged ht').hostMoves, hview'⟩
  | reset r' =>
    obtain rfl : r' = r := beq_iff_eq.mp hc
    obtain ⟨hr, rfl⟩ := resetReader_next (by simpa only [step, hm] using ht)
    obtain ⟨-, -, -, hslot⟩ := State.view_eq_iff.mp hview
    have hr' : r' < s'.slots.length := by
      rwa [← Nat.not_le, ← List.getElem?_eq_none_iff, hslot, List.getElem?_eq_none_iff, Nat.not_le]
    exact ⟨_, step_reset hm' hr', rfl,
      State.view_setSlot_same (s := { s with hostMoves := rest }) (s' := { s' with hostMoves := rest' }) hview _⟩
  | boot bytes => exact nomatch hw

/-- From states with the same view of Reader `r`, all the moves and those to `r` alone leave the same view of it. -/
theorem runMoves_view {moves : List HostMove} {s s' : State} {r : Nat} (hview : s'.view r = s.view r)
    (hw : ∀ m ∈ moves, m.within s.slots.length = true) :
    ∃ t t', runMoves s moves = .next t ∧ runMoves s' (moves.filter (HostMove.concerns r)) = .next t' ∧
      t'.view r = t.view r := by
  induction moves generalizing s s' with
  | nil => exact ⟨_, _, runMoves_nil s, runMoves_nil s', hview⟩
  | cons m moves ih =>
    rw [List.forall_mem_cons] at hw
    obtain ⟨t, ht, hmoves, -, -, hcount⟩ := step_of_within (s := { s with hostMoves := m :: moves }) rfl hw.1
    by_cases hc : m.concerns r = true
    · obtain ⟨t', ht', hmoves', hview'⟩ :=
        step_view_of_concerns (s := { s with hostMoves := m :: moves })
          (s' := { s' with hostMoves := m :: moves.filter (HostMove.concerns r) })
          rfl rfl hw.1 hc hview ht
      obtain ⟨u, u', hu, hu', huview⟩ := ih hview' (hcount ▸ hw.2)
      rw [List.filter_cons_of_pos hc]
      exact ⟨u, u', (runMoves_cons_of_next ht hmoves).trans hu, (runMoves_cons_of_next ht' hmoves').trans hu', huview⟩
    · have hskip := step_view_of_not_concerns (s := { s with hostMoves := m :: moves }) rfl hc ht
      obtain ⟨u, u', hu, hu', huview⟩ := ih (hview.trans hskip.symm) (hcount ▸ hw.2)
      rw [List.filter_cons_of_neg hc]
      exact ⟨u, u', (runMoves_cons_of_next ht hmoves).trans hu, hu', huview⟩

/-- Settles O46: the two states have the same view of Reader `r`, which `runMoves_view` carries through the runs. -/
theorem interleavingDoesNotMatter : Obligations.InterleavingDoesNotMatter := by
  intro s s' r moves hN hbuf htrace _ hslot hw
  obtain ⟨t, t', ht, ht', hview⟩ := runMoves_view (State.view_eq_iff.mpr ⟨hN, hbuf, htrace, hslot⟩) hw
  obtain ⟨-, -, -, hslot'⟩ := State.view_eq_iff.mp hview
  exact ⟨t, t', ht, ht', hslot'⟩

end Sys2Proof.Machine
end

section
/-!
PROOF. The decoder and the encoder are inverse to each other (`decode_eq_iff`), and from that both round trips (O1, O2),
the opcode map of R58 (O3), R60's list (O4), the assembler's words (O6) and the samples of R66 (O5).
-/

namespace Sys2Proof

/-! ### The encoder, read back -/

/-- R58's first line at a word that meets its test. -/
theorem decode_of_readWord {cmd : Word} (h : cmd.toNat / 2 ^ 28 = 1 ∧ cmd.toNat / 2 ^ 4 % 2 ^ 24 = 0) :
    decode cmd = .read (widthField cmd) := by
  rw [decode_eq, if_pos h]

/-- R58's second line. -/
theorem decode_of_seekWord {cmd : Word} (h : cmd.toNat / 2 ^ 28 = 2) : decode cmd = .seek (posField cmd) := by
  rw [decode_eq, if_neg (by omega), if_pos h]

/-- R58's third line. -/
theorem decode_of_otherWord {cmd : Word} (hread : ¬(cmd.toNat / 2 ^ 28 = 1 ∧ cmd.toNat / 2 ^ 4 % 2 ^ 24 = 0))
    (hseek : ¬cmd.toNat / 2 ^ 28 = 2) : decode cmd = .illegal cmd := by
  rw [decode_eq, if_neg hread, if_neg hseek]

/-- No bit of a READ's encoding is dropped (R53, R55). -/
theorem decode_encode_read (w : BitVec 4) : decode (encode (.read w)) = .read w := by
  have hword := encode_read_toNat w
  have hw := w.isLt
  rw [decode_of_readWord (by omega), Instr.read.injEq, ← BitVec.toNat_inj, widthField_toNat]
  omega

/-- No bit of a SEEK's encoding is dropped (R54, R56). -/
theorem decode_encode_seek (pos : BitVec 28) : decode (encode (.seek pos)) = .seek pos := by
  have hword := encode_seek_toNat pos
  have hpos := pos.isLt
  rw [decode_of_seekWord (by omega), Instr.seek.injEq, ← BitVec.toNat_inj, posField_toNat]
  omega

/-- R60's list, from the tests of R58: the words that neither READ's nor SEEK's takes. -/
theorem decode_eq_illegal_iff (cmd : Word) : decode cmd = .illegal cmd ↔ isIllegalWord cmd = true := by
  refine ⟨Laws.DecodedWellFormed.illegal cmd cmd, fun h => ?_⟩
  rw [isIllegalWord_iff] at h
  exact decode_of_otherWord (by omega) (by omega)

theorem decode_encode {i : Instr} (h : WellFormed i) : decode (encode i) = i := by
  cases i with
  | read w => exact decode_encode_read w
  | seek pos => exact decode_encode_seek pos
  | illegal cmd => exact (decode_eq_illegal_iff cmd).mpr h

/-- A well-formed instruction is what exactly one word decodes to, its encoding. -/
theorem decode_eq_iff {cmd : Word} {i : Instr} (h : WellFormed i) : decode cmd = i ↔ cmd = encode i :=
  ⟨fun hdec => (Machine.encode_of_decode_eq hdec).symm, fun henc => henc ▸ decode_encode h⟩

/-- Settles O1, by `decode_encode`. -/
theorem decodeOfEncode : Obligations.DecodeOfEncode := fun _ h => decode_encode h

/-- Settles O2, by `Machine.encode_decode`. -/
theorem encodeOfDecode : Obligations.EncodeOfDecode := Machine.encode_decode

/-- Settles O4, by `decode_eq_illegal_iff`. -/
theorem illegalWordsAreThoseListed : Obligations.IllegalWordsAreThoseListed := decode_eq_illegal_iff

/-- Settles O5, by evaluating the decoder at each of the thirteen words. -/
theorem sampleWordsDecode : Obligations.SampleWordsDecode := by
  unfold Obligations.SampleWordsDecode
  decide

/-! ### The opcode map as ranges of words -/

theorem decode_eq_read_iff (cmd : Word) (w : BitVec 4) :
    decode cmd = .read w ↔ cmd.toNat = 0x10000000 + w.toNat := by
  rw [decode_eq_iff rfl, ← BitVec.toNat_inj, encode_read_toNat]

theorem decode_eq_seek_iff (cmd : Word) (pos : BitVec 28) :
    decode cmd = .seek pos ↔ cmd.toNat = 0x20000000 + pos.toNat := by
  rw [decode_eq_iff rfl, ← BitVec.toNat_inj, encode_seek_toNat]

/-- Adding to `base` every value of a `w`-bit field gives a range of numbers. -/
theorem exists_toNat_add_iff {w : Nat} (x base : Nat) :
    (∃ v : BitVec w, x = base + v.toNat) ↔ base ≤ x ∧ x < base + 2 ^ w := by
  constructor
  · rintro ⟨v, rfl⟩
    have hv := v.isLt
    omega
  · rintro ⟨hlo, hhi⟩
    refine ⟨BitVec.ofNat w (x - base), ?_⟩
    rw [BitVec.toNat_ofNat, Nat.mod_eq_of_lt (by omega)]
    omega

/-- The sixteen READ words. -/
theorem exists_decode_eq_read_iff (cmd : Word) :
    (∃ w, decode cmd = .read w) ↔ 0x10000000 ≤ cmd.toNat ∧ cmd.toNat < 0x10000010 := by
  simp only [decode_eq_read_iff]
  exact exists_toNat_add_iff cmd.toNat 0x10000000

/-- The `2^28` SEEK words. -/
theorem exists_decode_eq_seek_iff (cmd : Word) :
    (∃ pos, decode cmd = .seek pos) ↔ 0x20000000 ≤ cmd.toNat ∧ cmd.toNat < 0x30000000 := by
  simp only [decode_eq_seek_iff]
  exact exists_toNat_add_iff cmd.toNat 0x20000000

/-- The eight READ words of legal width. -/
theorem exists_decode_eq_legal_read_iff (cmd : Word) :
    (∃ w, decode cmd = .read w ∧ 1 ≤ w.toNat ∧ w.toNat ≤ 8) ↔
      0x10000001 ≤ cmd.toNat ∧ cmd.toNat ≤ 0x10000008 := by
  constructor
  · rintro ⟨w, hw, h1, h8⟩
    rw [decode_eq_read_iff] at hw
    omega
  · rintro ⟨hlo, hhi⟩
    obtain ⟨w, hw⟩ := (exists_decode_eq_read_iff cmd).mpr (by omega)
    have hval := (decode_eq_read_iff cmd w).mp hw
    exact ⟨w, hw, by omega, by omega⟩

/-- Settles O3: the three lines by the decoder's equations, the ranges from the numbers of the encodings. -/
theorem decodeIsTheOpcodeMap : Obligations.DecodeIsTheOpcodeMap := by
  intro cmd
  refine ⟨fun h => ?_, fun h => ?_, fun h => decode_of_otherWord h.1 h.2, ?_,
    exists_decode_eq_legal_read_iff cmd, ?_⟩
  · rw [decode_of_readWord h, ← widthField_toNat, BitVec.ofNat_toNat, BitVec.setWidth_eq]
  · rw [decode_of_seekWord h, ← posField_toNat, BitVec.ofNat_toNat, BitVec.setWidth_eq]
  · rw [exists_decode_eq_read_iff]
    omega
  · rw [exists_decode_eq_seek_iff]
    omega

/-! ### The assembler -/

/-- An opcode put above a 28-bit operand by `or`, as the assembler does. -/
theorem opcode_or_toNat {op n : Nat} (hop : op < 2 ^ 4) (hn : n < 2 ^ 28) :
    (BitVec.ofNat 32 (op <<< 28) ||| BitVec.ofNat 32 n).toNat = op * 2 ^ 28 + n := by
  have hshift : op <<< 28 = op * 2 ^ 28 := Nat.shiftLeft_eq op 28
  rw [BitVec.toNat_or, BitVec.toNat_ofNat, BitVec.toNat_ofNat, Nat.mod_eq_of_lt (by omega),
    Nat.mod_eq_of_lt (by omega), ← Nat.shiftLeft_add_eq_or_of_lt hn, hshift]

theorem assembleCommand_read {n : Nat} (h : n ≤ 15) :
    Machine.assembleCommand (.read n) = some (encode (.read (BitVec.ofNat 4 n))) := by
  have hword := opcode_or_toNat (op := 1) (n := n) (by decide) (by omega)
  have hn : n % 2 ^ 4 = n := Nat.mod_eq_of_lt (by omega)
  rw [Machine.assembleCommand, if_pos h, Option.some.injEq, ← BitVec.toNat_inj, encode_read_toNat,
    BitVec.toNat_ofNat, hn]
  exact hword

theorem assembleCommand_seek {n : Nat} (h : n ≤ 2 ^ 28 - 1) :
    Machine.assembleCommand (.seek n) = some (encode (.seek (BitVec.ofNat 28 n))) := by
  have hword := opcode_or_toNat (op := 2) (n := n) (by decide) (by omega)
  have hn : n % 2 ^ 28 = n := Nat.mod_eq_of_lt (by omega)
  rw [Machine.assembleCommand, if_pos h, Option.some.injEq, ← BitVec.toNat_inj, encode_seek_toNat,
    BitVec.toNat_ofNat, hn]
  exact hword

/-- Settles O6: an accepted READ or SEEK is the encoding of its instruction, which `decode_encode` reads back; the
refusals are the assembler's own bounds. -/
theorem assembledCommandsDecode : Obligations.AssembledCommandsDecode := by
  intro n
  refine ⟨fun h => ?_, fun h => if_neg (Nat.not_le.mpr h), fun h => ?_, fun h => if_neg (Nat.not_le.mpr h),
    fun h => if_pos h, fun h => if_neg (Nat.not_lt.mpr h)⟩
  · rw [assembleCommand_read h, Option.map_some, decode_encode_read]
  · rw [assembleCommand_seek h, Option.map_some, decode_encode_seek]

end Sys2Proof
end

section
/-!
PROOF. The response of a performed command: which kinds a command can give and what they say of FAULTED (O27), and the
agreement of the recorded responses and trace with the registers, which every step keeps (O51). Then O37, a step at a
command word.
-/

namespace Sys2Proof.Machine

/-! ### The one response of a command -/

/-- R62: Data comes from a READ and Ack from a SEEK, both with FAULTED 0; a Fault sets FAULTED and shows in CAUSE. -/
theorem CommandEffect.response_kind {nBytes : ByteCount} {buf : Memory} {rd rd' : Reader} {i : Instr}
    {resp : Response} (heff : CommandEffect nBytes buf rd i rd' resp) (hf : rd.faulted = false) :
    (∃ v w, resp = .data v ∧ i = .read w ∧ rd'.faulted = false) ∨
    (∃ pos, resp = .ack ∧ i = .seek pos ∧ rd'.faulted = false) ∨
    (∃ c, resp = .fault c ∧ rd'.faulted = true ∧ rd'.cause = Cause.code c) := by
  cases heff with
  | read => exact .inl ⟨_, _, rfl, rfl, hf⟩
  | seek => exact .inr (.inl ⟨_, rfl, rfl, hf⟩)
  | widthRange | readOverrun | seekRange | illegal => exact .inr (.inr ⟨_, rfl, rfl, rfl⟩)

/-- The response word as a number: the kind above the payload (R62). -/
theorem Response.word_toNat (resp : Response) :
    resp.word.toNat = resp.kind.toNat * 2 ^ 8 + resp.payload.toNat := by
  rw [Response.word, BitVec.toNat_append, ← Nat.shiftLeft_add_eq_or_of_lt resp.payload.isLt, Nat.shiftLeft_eq,
    BitVec.toNat_append, BitVec.toNat_zero, Nat.zero_shiftLeft, Nat.zero_or]

/-- The fields of the response word (R62). -/
theorem Response.word_fields (resp : Response) :
    resp.word.toNat / 2 ^ 10 = 0 ∧ resp.word.toNat / 2 ^ 8 % 4 = resp.kind.toNat ∧
      resp.word.toNat % 2 ^ 8 = resp.payload.toNat := by
  have hword := resp.word_toNat
  have hkind := resp.kind.isLt
  have hpayload := resp.payload.isLt
  omega

theorem Response.kind_ne_zero (resp : Response) : resp.kind.toNat ≠ 0 := by
  cases resp <;> simp [Response.kind]

/-- A cause code is sent in the payload unchanged. -/
theorem Cause.payload_toNat (c : Cause) : (Response.fault c).payload.toNat = c.code.toNat := by
  cases c <;> decide

/-- Settles O27: the response of `exec_of_ready` has a kind by `CommandEffect.response_kind`; the fields of its word are
read off `Response.word_fields`. -/
theorem oneResponsePerCommand : Obligations.OneResponsePerCommand := by
  refine ⟨fun i s sl hs => ?_, fun resp => ?_⟩
  · obtain ⟨t, rd, resp, ht, heff, hperf⟩ := exec_of_ready hs i
    obtain ⟨sl', hsl', rfl, hresp⟩ := hperf.slot_at_port hs
    refine ⟨t, sl', resp, ht, hsl', hresp, ?_⟩
    obtain ⟨v, w, rfl, rfl, hf⟩ | ⟨pos, rfl, rfl, hf⟩ | ⟨c, rfl, hfault⟩ := heff.response_kind hs.2
    · exact ⟨⟨w, rfl⟩, hf⟩
    · exact ⟨⟨pos, rfl⟩, hf⟩
    · exact hfault
  · obtain ⟨hzero, hkind, hpayload⟩ := resp.word_fields
    refine ⟨hzero, hkind ▸ resp.kind_ne_zero, ?_⟩
    cases resp with
    | data v => exact ⟨hkind, hpayload⟩
    | ack => exact ⟨hkind, hpayload⟩
    | fault c => exact ⟨hkind, hpayload.trans c.payload_toNat⟩

/-! ### Outputs and registers in agreement -/

theorem Slot.responsesAgree_of_not_faulted {sl : Slot} (hf : sl.reader.faulted = false) :
    sl.responsesAgree ↔ ∀ c, .fault c ∉ sl.responses := by
  simp only [Slot.responsesAgree, hf, Bool.false_eq_true, if_false]

theorem Slot.responsesAgree_of_faulted {sl : Slot} (hf : sl.reader.faulted = true) :
    sl.responsesAgree ↔ ∃ earlier c, sl.responses = earlier ++ [.fault c] ∧ Cause.code c = sl.reader.cause ∧
      ∀ c', .fault c' ∉ earlier := by
  simp only [Slot.responsesAgree, hf, if_true]

/-- A reset Reader has put out nothing, and is not faulted. -/
theorem Slot.reset_agrees (traceEn : Bool) (r : Nat) :
    Slot.reset.responsesAgree ∧ Slot.reset.traceAgrees traceEn r := by
  refine ⟨(Slot.responsesAgree_of_not_faulted rfl).mpr fun c => List.not_mem_nil, ?_⟩
  cases traceEn with
  | false => exact rfl
  | true => exact ⟨rfl, fun e he => absurd he List.not_mem_nil⟩

/-- A command that a Reader accepts keeps its responses in agreement with its registers: the one response it adds is a
Fault exactly where it faults. -/
theorem Slot.responsesAgree.complete {nBytes : ByteCount} {buf : Memory} {sl : Slot} {i : Instr} {rd : Reader}
    {resp : Response} (h : sl.responsesAgree) (hf : sl.reader.faulted = false)
    (heff : CommandEffect nBytes buf sl.reader i rd resp) (traceEn : Bool) (r : Nat) (cmd : Word) :
    (sl.complete traceEn r cmd rd resp).responsesAgree := by
  have hearlier := (Slot.responsesAgree_of_not_faulted hf).mp h
  obtain ⟨v, w, rfl, -, hrd⟩ | ⟨pos, rfl, -, hrd⟩ | ⟨c, rfl, hrd, hcause⟩ := heff.response_kind hf
  · exact (Slot.responsesAgree_of_not_faulted hrd).mpr fun c => by simp [hearlier]
  · exact (Slot.responsesAgree_of_not_faulted hrd).mpr fun c => by simp [hearlier]
  · exact (Slot.responsesAgree_of_faulted hrd).mpr ⟨sl.responses, c, rfl, hcause.symm, hearlier⟩

/-- A performed command adds one event for its one response, or none with TRACE_EN false (R116). -/
theorem Slot.traceAgrees.complete {sl : Slot} {traceEn : Bool} {r : Nat} (h : sl.traceAgrees traceEn r) (cmd : Word)
    (rd : Reader) (resp : Response) : (sl.complete traceEn r cmd rd resp).traceAgrees traceEn r := by
  cases traceEn with
  | false =>
    have hnone : sl.trace = [] := h
    simp [Slot.traceAgrees, traceOf, hnone]
  | true =>
    obtain ⟨hmap, hindex⟩ : sl.trace.map TraceEvent.response = sl.responses ∧ ∀ e ∈ sl.trace, e.r = r := h
    simpa [Slot.traceAgrees, traceOf, hmap, or_imp, forall_and] using hindex

theorem State.OutputsInv.setSlot {s : State} {r : Nat} {sl : Slot} (h : s.OutputsInv)
    (hsl : sl.responsesAgree ∧ sl.traceAgrees s.traceEn r) : (s.setSlot r sl).OutputsInv := by
  intro r' sl' hsl'
  by_cases hr : r' = r
  · subst hr
    obtain ⟨hlt, -⟩ := List.getElem?_eq_some_iff.mp hsl'
    obtain rfl : sl = sl' :=
      Option.some.inj ((s.setSlot_same r' sl (s.setSlot_length r' sl ▸ hlt)).symm.trans hsl')
    exact hsl
  · exact h r' sl' ((s.setSlot_other r r' sl hr).symm.trans hsl')

/-- A command keeps the outputs of every Reader in agreement. -/
theorem exec_outputsInv {i : Instr} {s t : State} (h : s.OutputsInv) (ht : exec i s = .next t) : t.OutputsInv := by
  obtain ⟨sl, hsl, ⟨_, rfl⟩ | ⟨hf, rd, resp, heff, rfl⟩⟩ := exec_next ht
  · exact h
  · obtain ⟨hresp, htrace⟩ := h s.port sl hsl
    exact h.setSlot ⟨hresp.complete hf heff s.traceEn s.port (encode i), htrace.complete (encode i) rd resp⟩

/-- Settles O51: of the moves a step can make, a command keeps the agreement by `exec_outputsInv`, and a reset and a new
buffer put Readers with empty outputs in place. -/
theorem stepKeepsOutputsInvariant : Obligations.StepKeepsOutputsInvariant := by
  intro s t h ht
  obtain ⟨_, rfl⟩ | ⟨r, cmd, rest, _, hexec⟩ | ⟨r, rest, _, _, rfl⟩ | ⟨bytes, rest, _, hlen, rfl⟩ := step_next ht
  · exact h
  · exact exec_outputsInv (s := s.present r rest) h hexec
  · exact State.OutputsInv.setSlot (s := { s with hostMoves := rest }) h (Slot.reset_agrees s.traceEn r)
  · intro r sl hsl
    obtain ⟨_, _, rfl⟩ := List.mem_map.mp (List.mem_of_getElem? hsl)
    exact Slot.reset_agrees s.traceEn r

/-! ### A step at a command word -/

theorem step_command {s : State} {r : Nat} {cmd : Word} {rest : List HostMove}
    (hm : s.hostMoves = .command r cmd :: rest) : step s = exec (decode cmd) (s.present r rest) := by
  simp only [step, hm]

/-- Settles O37, by `step_command`. -/
theorem stepRunsTheDecodedCommand : Obligations.StepRunsTheDecodedCommand := by
  intro s r cmd rest i hm hdec _
  rw [step_command hm, hdec, State.present]

end Sys2Proof.Machine
end

section
/-!
PROOF. The bit primitives: SELECT bit by bit and its raise (O7), its mask as numbers (O8), SHIFT (O9); and that neither
raise is ever reached, in EXTRACT or by a command (O15).
-/

namespace Sys2Proof.Machine

/-! ### SELECT and its mask -/

theorem select_of_outside {start stop : Nat} (v : Byte) (h : stop < start ∨ 7 < stop) :
    select v start stop = .error (.violation (.selectRange start stop)) := by
  rw [select, if_neg (by omega), raise]

/-- Settles O7: past its check SELECT is an `and` with the mask, whose bits are those of `selMask_getLsbD`. -/
theorem selectKeepsTheRange : Obligations.SelectKeepsTheRange := by
  refine fun v start stop => ⟨fun ⟨hle, h7⟩ => ⟨_, select_of_range v hle h7, fun k => ?_⟩, select_of_outside v⟩
  rw [BitVec.getLsbD_and, selMask_getLsbD h7]

/-- R69's formula on numbers. -/
theorem selMask_toNat (start stop : Nat) :
    (selMask start stop).toNat = ((0xFF <<< start) % 256) &&& (0xFF >>> (7 - stop)) := by
  rw [selMask, BitVec.toNat_and, BitVec.toNat_shiftLeft, BitVec.toNat_ushiftRight]
  rfl

/-- The difference of two all-ones numbers has its ones from `a` up to below `b`. -/
theorem testBit_ones_sub_ones {a b : Nat} (h : a ≤ b) (k : Nat) :
    ((2 ^ b - 1) - (2 ^ a - 1)).testBit k = decide (a ≤ k ∧ k < b) := by
  have hblock : (2 ^ b - 1) - (2 ^ a - 1) = 2 ^ a * (2 ^ (b - a) - 1) := by
    rw [Nat.mul_sub_one, ← Nat.pow_add, Nat.add_sub_cancel' h, Nat.sub_sub, Nat.add_sub_cancel' Nat.one_le_two_pow]
  have hrange : a ≤ k ∧ k - a < b - a ↔ a ≤ k ∧ k < b := by omega
  rw [hblock, Nat.testBit_two_pow_mul, Nat.testBit_two_pow_sub_one, ← Bool.decide_and, decide_eq_decide]
  exact hrange

/-- R69's closed form: both numbers have the bits of the range. -/
theorem selMask_toNat_closed {start stop : Nat} (h : start ≤ stop) (h7 : stop ≤ 7) :
    (selMask start stop).toNat = (2 ^ (stop + 1) - 1) - (2 ^ start - 1) := by
  refine Nat.eq_of_testBit_eq fun k => ?_
  rw [← BitVec.getLsbD, selMask_getLsbD h7, testBit_ones_sub_ones (Nat.le_succ_of_le h)]
  exact decide_eq_decide.mpr (and_congr_right' Nat.lt_succ_iff.symm)

/-- Settles O8, by the three lemmas on the mask. -/
theorem selectMaskBits : Obligations.SelectMaskBits := fun start stop h h7 =>
  ⟨selMask_toNat start stop, selMask_getLsbD h7, selMask_toNat_closed h h7⟩

/-! ### SHIFT -/

theorem shift_of_outside {start offset : Nat} (v : Byte) (h : 7 < start ∨ 8 < offset) :
    shift v start offset = .error (.violation (.shiftRange start offset)) := by
  rw [shift, if_neg (by omega), raise]

/-- Settles O9: past its check SHIFT is two shifts of a byte, of which the left one keeps 8 bits. -/
theorem shiftTruncates : Obligations.ShiftTruncates := by
  refine fun v start offset => ⟨fun ⟨h7, h8⟩ => ⟨_, shift_of_range v h7 h8, ?_⟩, shift_of_outside v⟩
  rw [BitVec.toNat_shiftLeft, BitVec.toNat_ushiftRight]

/-! ### The raises are unreachable -/

theorem localStart_le (p : Nat) : localStart p ≤ 7 := Nat.le_of_lt_succ (Nat.mod_lt p (by decide))

theorem localEnd_le (p n : Nat) : localEnd p n ≤ 7 := Nat.le_of_lt_succ (Nat.mod_lt _ (by decide))

theorem countFirst_le (p n : Nat) : countFirst p n ≤ 8 :=
  Nat.le_trans (Nat.min_le_left _ n) (Nat.sub_le 8 _)

/-- Whatever its arguments, EXTRACT ends early only by one of R74's two checks. -/
theorem extract_error {nBytes : ByteCount} {buf : Memory} {p n : Nat} {e : Stop}
    (h : extract nBytes buf p n = .error e) :
    e = .violation (.widthRange n) ∨ e = .violation (.readOverrun p n) := by
  by_cases hw : 1 ≤ n ∧ n ≤ 8
  · by_cases hcap : p + n ≤ capacity nBytes
    · exact nomatch (extract_eq hw.1 hw.2 hcap).symm.trans h
    · exact .inr (Except.error.inj ((extract_of_overrun hw hcap).symm.trans h)).symm
  · exact .inl (Except.error.inj ((extract_of_width hw).symm.trans h)).symm

/-- The one response that a command adds at a ready Reader is that of one of its effects. -/
theorem effect_of_response {i : Instr} {s t : State} {sl sl' : Slot} {resp : Response} (hs : s.ready sl)
    (ht : exec i s = .next t) (hsl' : t.slots[s.port]? = some sl') (hresp : sl'.responses = sl.responses ++ [resp]) :
    ∃ rd, CommandEffect s.nBytes s.buf sl.reader i rd resp := by
  obtain ⟨t', rd, resp', ht', heff, hperf⟩ := exec_of_ready hs i
  obtain rfl : t' = t := Host.Outcome.next.inj (ht'.symm.trans ht)
  obtain ⟨sl₀, hsl₀, -, hresp'⟩ := hperf.slot_at_port hs
  obtain rfl : sl₀ = sl' := Option.some.inj (hsl₀.symm.trans hsl')
  obtain rfl : resp' = resp := List.singleton_inj.mp (List.append_cancel_left (hresp'.symm.trans hresp))
  exact ⟨rd, heff⟩

/-- No effect of a command answers a primitive's fault. -/
theorem CommandEffect.response_ne_primitive {nBytes : ByteCount} {buf : Memory} {rd rd' : Reader} {i : Instr}
    {resp : Response} (heff : CommandEffect nBytes buf rd i rd' resp) :
    resp ≠ .fault .selectRange ∧ resp ≠ .fault .shiftRange := by
  cases heff <;> exact ⟨nofun, nofun⟩

/-- Settles O15: the bounds of R75's intermediate values; EXTRACT by `extract_error`, a command by the list of its
effects. -/
theorem primitiveFaultsUnreachable : Obligations.PrimitiveFaultsUnreachable := by
  refine ⟨fun p n _ _ => ⟨localStart_le p, localEnd_le p n, countFirst_le p n, (twoBytes_false_iff p n).mp⟩,
    fun nBytes buf p n a b => ⟨fun h => ?_, fun h => ?_⟩, fun i s t sl sl' resp hs ht hsl' hresp => ?_⟩
  · obtain h | h := extract_error h <;> cases h
  · obtain h | h := extract_error h <;> cases h
  · obtain ⟨rd, heff⟩ := effect_of_response hs ht hsl' hresp
    exact heff.response_ne_primitive

end Sys2Proof.Machine
end

section
/-!
PROOF. The field extractor: its counts and byte indexes (O12, O13), its checks and their boundary (O10, O14, O20), its
two parts and their closed forms (O16, O18), and the reads that compare with a byte or with each other (O17, O19).
-/

namespace Sys2Proof.Machine

/-! ### Counts and byte indexes -/

/-- R77: a field that crosses a byte boundary ends in the next byte. -/
theorem byteLast_of_twoBytes {p n : Nat} (h1 : 1 ≤ n) (h8 : n ≤ 8) (ht : twoBytes p n = true) :
    byteLast p n = byteFirst p + 1 := by
  simp only [twoBytes_iff, localStart, localEnd, byteFirst, byteLast] at *
  omega

/-- R77: a field that crosses no byte boundary ends in the byte it begins in. -/
theorem byteLast_of_oneByte {p n : Nat} (h1 : 1 ≤ n) (h8 : n ≤ 8) (ht : twoBytes p n = false) :
    byteLast p n = byteFirst p := by
  simp only [twoBytes_false_iff, localStart, localEnd, byteFirst, byteLast] at *
  omega

/-- R78: a crossing field takes the first byte from the field's start up. -/
theorem countFirst_of_twoBytes {p n : Nat} (h1 : 1 ≤ n) (ht : twoBytes p n = true) :
    countFirst p n = 8 - localStart p := by
  simp only [twoBytes_iff, countFirst, localStart, localEnd] at *
  omega

/-- A field within one byte takes all its bits from it. -/
theorem countFirst_of_oneByte {p n : Nat} (h1 : 1 ≤ n) (h8 : n ≤ 8) (ht : twoBytes p n = false) :
    countFirst p n = n := by
  simp only [twoBytes_false_iff, countFirst, localStart, localEnd] at *
  omega

/-- R78: a crossing field takes the last byte's bits up to the field's end. -/
theorem countSecond_of_twoBytes {p n : Nat} (h1 : 1 ≤ n) (h8 : n ≤ 8) (ht : twoBytes p n = true) :
    countSecond p n = localEnd p n + 1 := by
  rw [countSecond, countFirst_of_twoBytes h1 ht]
  simp only [twoBytes_iff, localStart, localEnd] at *
  omega

theorem countSecond_of_oneByte {p n : Nat} (h1 : 1 ≤ n) (h8 : n ≤ 8) (ht : twoBytes p n = false) :
    countSecond p n = 0 := by
  rw [countSecond, countFirst_of_oneByte h1 h8 ht, Nat.sub_self]

theorem countFirst_pos {n : Nat} (p : Nat) (h1 : 1 ≤ n) : 1 ≤ countFirst p n :=
  Nat.le_min.mpr ⟨Nat.le_sub_of_add_le' (Nat.succ_le_succ (localStart_le p)), h1⟩

theorem countFirst_add_countSecond (p n : Nat) : countFirst p n + countSecond p n = n :=
  Nat.add_sub_cancel' (Nat.min_le_right _ n)

theorem localStart_pos_of_twoBytes {p n : Nat} (ht : twoBytes p n = true) : 1 ≤ localStart p :=
  Nat.one_le_of_lt ((twoBytes_iff p n).mp ht)

/-- R78, the safety statement: a field that fits lies in bytes the buffer has. -/
theorem byteIndexes_lt {nBytes : ByteCount} {p n : Nat} (h1 : 1 ≤ n) (hcap : p + n ≤ capacity nBytes) :
    byteFirst p < nBytes.val ∧ byteLast p n < nBytes.val := by
  simp only [byteFirst, byteLast, capacity] at *
  omega

/-- Settles O12: the two sides agree whether or not the field crosses. -/
theorem twoBytesMeansNextByte : Obligations.TwoBytesMeansNextByte := by
  intro p n h1 h8
  refine ⟨⟨fun ht => ?_, fun hne => ?_⟩, byteLast_of_twoBytes h1 h8⟩
  · rw [byteLast_of_twoBytes h1 h8 ht]
    exact Nat.succ_ne_self _
  · exact Bool.of_not_eq_false fun ht => hne (byteLast_of_oneByte h1 h8 ht)

/-- Settles O13, by the lemmas on counts and byte indexes. -/
theorem countInvariants : Obligations.CountInvariants := by
  intro p n h1 h8
  refine ⟨countFirst_pos p h1, countFirst_le p n, countFirst_add_countSecond p n, (Nat.max_zero _).symm,
    ⟨fun hzero => Bool.of_not_eq_true fun ht => ?_, countSecond_of_oneByte h1 h8⟩, fun ht => ?_,
    fun _ => byteIndexes_lt h1⟩
  · exact Nat.succ_ne_zero _ ((countSecond_of_twoBytes h1 h8 ht).symm.trans hzero)
  · have hcount := countFirst_of_twoBytes h1 ht
    have hstart := localStart_pos_of_twoBytes ht
    exact ⟨hcount, countSecond_of_twoBytes h1 h8 ht, hstart, localStart_le p, by omega⟩

/-! ### The checks and the buffer's end -/

/-- Settles O10: EXTRACT's three equations, one for each outcome of R74's checks. -/
theorem extractPreconditions : Obligations.ExtractPreconditions := fun _ _ _ _ =>
  ⟨fun hwidth => extract_of_width (by omega), fun h1 h8 hover => extract_of_overrun ⟨h1, h8⟩ (Nat.not_le.mpr hover),
    fun h1 h8 hcap => ⟨_, extract_eq h1 h8 hcap⟩⟩

/-- Settles O14: EXTRACT's only errors are R74's two violations (`extract_error`), so no byte read faults. -/
theorem extractStaysInsideTheBuffer : Obligations.ExtractStaysInsideTheBuffer := by
  refine fun nBytes buf p n => ⟨fun h1 _ => byteIndexes_lt h1, fun hN ⟨h1, _, hcap⟩ => by omega, fun f h => ?_⟩
  obtain h | h := extract_error h <;> cases h

/-- Settles O20: the field at `CAP - n` ends at CAP, the next one a bit past it. -/
theorem readBoundary : Obligations.ReadBoundary := by
  intro nBytes buf n h1 h8 hn
  have hend : 8 * nBytes.val - n + n = 8 * nBytes.val := Nat.sub_add_cancel hn
  have hover : ¬8 * nBytes.val - n + 1 + n ≤ 8 * nBytes.val := by omega
  have hfits := extract_eq (buf := buf) h1 h8 (Nat.le_of_eq hend)
  rw [hend] at hfits
  exact ⟨⟨_, hfits⟩, extract_of_overrun ⟨h1, h8⟩ hover⟩

/-! ### The two parts of a field -/

/-- Step 5 on numbers: the first byte shifted down, `countFirst` bits of it. -/
theorem firstBits_toNat {p n : Nat} (h1 : 1 ≤ n) (h8 : n ≤ 8) (byte : Byte) :
    (firstBits byte p n).toNat = (byte.toNat >>> localStart p) &&& (2 ^ countFirst p n - 1) := by
  refine Nat.eq_of_testBit_eq fun j => ?_
  rw [BitVec.testBit_toNat, firstBits_getLsbD h1 h8, Nat.testBit_and, Nat.testBit_shiftRight, BitVec.testBit_toNat,
    Nat.testBit_two_pow_sub_one]

/-- Step 6 on numbers: the low `countSecond` bits of the last byte, shifted up past the first part. -/
theorem secondBits_toNat {p n : Nat} (h1 : 1 ≤ n) (h8 : n ≤ 8) (byte : Byte) :
    (secondBits byte p n).toNat = (byte.toNat &&& (2 ^ countSecond p n - 1)) <<< countFirst p n := by
  refine Nat.eq_of_testBit_eq fun j => ?_
  have hrange : countFirst p n ≤ j ∧ j < n ↔ countFirst p n ≤ j ∧ j - countFirst p n < countSecond p n := by
    have hsum := countFirst_add_countSecond p n
    omega
  rw [BitVec.testBit_toNat, secondBits_getLsbD h1 h8, Nat.testBit_shiftLeft, Nat.testBit_and, BitVec.testBit_toNat,
    Nat.testBit_two_pow_sub_one, decide_eq_decide.mpr hrange, Bool.decide_and]
  exact Bool.and_left_comm _ _ _

/-- R79: the two parts have no set bit in common. -/
theorem firstBits_and_secondBits {p n : Nat} (h1 : 1 ≤ n) (h8 : n ≤ 8) (byte byte' : Byte) :
    firstBits byte p n &&& secondBits byte' p n = 0#8 := by
  refine BitVec.eq_of_getLsbD_eq fun j _ => ?_
  rw [BitVec.getLsbD_and, firstBits_getLsbD h1 h8, secondBits_getLsbD h1 h8, BitVec.getLsbD_zero]
  by_cases hj : j < countFirst p n
  · simp [Nat.not_le.mpr hj]
  · simp [hj]

/-- R79: the first part's bits below `countFirst` are the buffer's from the field's position on. -/
theorem firstBits_eq_bitAt {p n j : Nat} (buf : Memory) (h1 : 1 ≤ n) (h8 : n ≤ 8) (hj : j < countFirst p n) :
    ((firstBits (buf.read (byteFirst p)) p n).getLsbD j).toNat = bitAt buf (p + j) := by
  have hbyte : (p + j) / 8 = byteFirst p := by
    simp only [countFirst, localStart, byteFirst] at *
    omega
  have hbit : (p + j) % 8 = localStart p + j := by
    simp only [countFirst, localStart] at *
    omega
  rw [firstBits_getLsbD h1 h8, bitAt_eq, hbyte, hbit, decide_eq_true hj, Bool.and_true]

/-- R79: the second part's bits from `countFirst` up to below `n` are the buffer's from the last byte's bit 0 on. -/
theorem secondBits_eq_bitAt {p n j : Nat} (buf : Memory) (h1 : 1 ≤ n) (h8 : n ≤ 8) (hlo : countFirst p n ≤ j)
    (hhi : j < n) :
    ((secondBits (buf.read (byteLast p n)) p n).getLsbD j).toNat =
      bitAt buf (8 * byteLast p n + (j - countFirst p n)) := by
  have hoffset : j - countFirst p n < 8 := by omega
  rw [secondBits_getLsbD h1 h8, bitAt_eq, Nat.mul_add_div (by decide), Nat.div_eq_of_lt hoffset, Nat.add_zero,
    Nat.mul_add_mod, Nat.mod_eq_of_lt hoffset, decide_eq_true ⟨hlo, hhi⟩, Bool.and_true]

/-- Settles O16: the bits of the two parts, and their sum as the or of disjoint numbers. -/
theorem partsDoNotOverlap : Obligations.PartsDoNotOverlap := by
  intro nBytes buf p n h1 h8 hcap
  have hdisjoint := firstBits_and_secondBits (p := p) h1 h8 (buf.read (byteFirst p)) (buf.read (byteLast p n))
  refine ⟨_, _, firstPart_eq h1 hcap, secondPart_eq h1 h8 hcap, ?_, fun j => firstBits_eq_bitAt buf h1 h8,
    fun _ => ⟨fun j => secondBits_eq_bitAt buf h1 h8, fun j hout => ?_⟩, hdisjoint, ?_,
    countFirst_add_countSecond p n⟩
  · rw [firstBits_toNat h1 h8, Nat.and_two_pow_sub_one_eq_mod]
    exact Nat.mod_lt _ (Nat.two_pow_pos _)
  · rw [secondBits_getLsbD h1 h8, decide_eq_false (by omega), Bool.and_false]
  · rw [← BitVec.add_eq_or_of_and_eq_zero _ _ hdisjoint, BitVec.toNat_add_of_and_eq_zero hdisjoint]

/-- Settles O18: the parts as numbers. Within one byte the second part is empty; in a crossing field the first part is
all that the shift leaves of the first byte. -/
theorem extractClosedForm : Obligations.ExtractClosedForm := by
  intro nBytes buf p n h1 h8 hcap
  refine ⟨_, extract_eq h1 h8 hcap, fun ht => ?_, fun ht => ?_⟩
  · rw [BitVec.toNat_or, firstBits_toNat h1 h8, secondBits_toNat h1 h8, countFirst_of_oneByte h1 h8 ht,
      countSecond_of_oneByte h1 h8 ht, Nat.pow_zero, Nat.sub_self, Nat.and_zero, Nat.zero_shiftLeft, Nat.or_zero]
  · have hshifted : (buf.read (byteFirst p)).toNat >>> localStart p < 2 ^ (8 - localStart p) := by
      rw [← BitVec.toNat_ushiftRight]
      exact BitVec.toNat_ushiftRight_lt _ _ (Nat.le_succ_of_le (localStart_le p))
    rw [BitVec.toNat_or, firstBits_toNat h1 h8, secondBits_toNat h1 h8, byteLast_of_twoBytes h1 h8 ht,
      Nat.and_two_pow_sub_one_of_lt_two_pow (countFirst_of_twoBytes h1 ht ▸ hshifted)]

/-! ### Whole bytes and adjacent reads -/

/-- R74 and R76 both ways: EXTRACT gives a pair exactly when the width is legal and the field fits; it is then the value
whose bits are the buffer's, with the position after the field. -/
theorem extract_ok_iff {nBytes : ByteCount} {buf : Memory} {p n q : Nat} {v : Byte} :
    extract nBytes buf p n = .ok (v, q) ↔ (1 ≤ n ∧ n ≤ 8) ∧ p + n ≤ capacity nBytes ∧ q = p + n ∧
      ∀ j, v.getLsbD j = ((buf.read ((p + j) / 8)).getLsbD ((p + j) % 8) && decide (j < n)) := by
  by_cases hw : 1 ≤ n ∧ n ≤ 8
  · by_cases hcap : p + n ≤ capacity nBytes
    · have hbits := extractedBits_getLsbD (p := p) buf hw.1 hw.2
      rw [extract_eq hw.1 hw.2 hcap, Except.ok.injEq, Prod.mk.injEq]
      constructor
      · rintro ⟨rfl, rfl⟩
        exact ⟨hw, hcap, rfl, hbits⟩
      · rintro ⟨-, -, rfl, hv⟩
        exact ⟨BitVec.eq_of_getLsbD_eq fun j _ => (hbits j).trans (hv j).symm, rfl⟩
    · simp [extract_of_overrun hw hcap, hcap]
  · simp [extract_of_width hw, hw]

/-- Settles O17: an aligned field of 8 bits is within one byte and has its bits. -/
theorem fullBytePassthrough : Obligations.FullBytePassthrough := by
  intro nBytes buf p haligned hcap
  have htwo : twoBytes p 8 = false := by
    rw [twoBytes_false_iff, localStart, haligned]
    exact Nat.zero_le _
  have hbyte : p / 8 < nBytes.val := (byteIndexes_lt (by decide) hcap).1
  refine ⟨countFirst_of_oneByte (by decide) (by decide) htwo, htwo, _, memRead_of_lt hbyte,
    extract_ok_iff.mpr ⟨by decide, hcap, rfl, fun j => ?_⟩⟩
  by_cases hj : j < 8
  · have hindex : (p + j) / 8 = p / 8 := by omega
    have hbit : (p + j) % 8 = j := by omega
    rw [hindex, hbit, decide_eq_true hj, Bool.and_true]
  · rw [BitVec.getLsbD_of_ge _ _ (Nat.le_of_not_lt hj), decide_eq_false hj, Bool.and_false]

/-- Settles O19: bit `j` of the composed value is the first read's below `n1`, and the second read's bit `j - n1` from
there up; each is the buffer's bit `p + j`. -/
theorem adjacentReadsCompose : Obligations.AdjacentReadsCompose := by
  intro nBytes buf p n1 n2 v1 v2 h8 hcap hfirst hsecond
  obtain ⟨⟨hpos, -⟩, -, -, hbits1⟩ := extract_ok_iff.mp hfirst
  obtain ⟨-, -, -, hbits2⟩ := extract_ok_iff.mp hsecond
  refine extract_ok_iff.mpr ⟨⟨Nat.le_add_right_of_le hpos, h8⟩, Nat.add_assoc p n1 n2 ▸ hcap, Nat.add_assoc p n1 n2,
    fun j => ?_⟩
  rw [BitVec.getLsbD_or, BitVec.getLsbD_shiftLeft, hbits1, hbits2]
  by_cases hj : j < n1
  · simp [hj, Nat.lt_add_right n2 hj]
  · have hplace : p + n1 + (j - n1) = p + j := by omega
    have hrange : j < 8 ∧ j - n1 < n2 ↔ j < n1 + n2 := by omega
    simp [hj, hplace, ← hrange, Bool.and_left_comm]

end Sys2Proof.Machine
end

section
/-!
PROOF. The outcome of each command at a ready Reader: READ's three cases (O21), SEEK's two (O22) and ILLEGAL's one (O23),
and what the commands do to the cursors between them (O34).
-/

namespace Sys2Proof.Machine

/-! ### The outcomes of the commands -/

/-- READ at a legal width that fits advances the cursor past the field and answers with the packed field (R88). -/
theorem exec_read_of_fit {s : State} {sl : Slot} {w : BitVec 4} (hs : s.ready sl) (hw : 1 ≤ w.toNat ∧ w.toNat ≤ 8)
    (hcap : sl.reader.readPos.toNat + w.toNat ≤ capacity s.nBytes) :
    ∃ t v, exec (.read w) s = .next t ∧
      Performed s t sl (encode (.read w)) (sl.reader.setReadPos (sl.reader.readPos.toNat + w.toNat)) (.data v) ∧
      v.toNat = packedField s.buf sl.reader.readPos.toNat w.toNat ∧ v.toNat < 2 ^ w.toNat := by
  obtain ⟨v, hv, hpacked, hlt, -⟩ := extractPacksLittleEndian s.nBytes s.buf _ _ hw.1 hw.2 hcap
  obtain ⟨t, ht, hperf⟩ := exec_performed_of_ok (i := .read w) hs (readAct_of_extract hv)
  exact ⟨t, v, ht, hperf, hpacked, hlt⟩

/-- Settles O21: the three cases are `exec_read_of_fit`, `exec_read_of_width` and `exec_read_of_overrun`. -/
theorem readOutcome : Obligations.ReadOutcome := by
  intro s sl w hs
  refine ⟨fun h1 h8 hcap => ?_, fun hw => exec_read_of_width hs (by omega),
    fun h1 h8 hover => exec_read_of_overrun hs ⟨h1, h8⟩ (Nat.not_le.mpr hover)⟩
  obtain ⟨t, v, ht, hperf, hvalue⟩ := exec_read_of_fit hs ⟨h1, h8⟩ hcap
  exact ⟨t, v, _, ht, hperf, sl.reader.setReadPos_readPos_toNat hcap, hvalue⟩

/-- Settles O22: the two cases are `exec_seek_of_le` and `exec_seek_of_gt`. -/
theorem seekOutcome : Obligations.SeekOutcome := fun _ _ _ hs => ⟨exec_seek_of_le hs, exec_seek_of_gt hs⟩

/-- Settles O23: `illegalAct` raises at any Reader, and R60's words decode as ILLEGAL by `decode_eq_illegal_iff`. -/
theorem illegalOutcome : Obligations.IllegalOutcome := fun _ _ cmd hs =>
  ⟨exec_performed_of_violation (i := .illegal cmd) (v := .illegalCommand cmd) hs rfl, (decode_eq_illegal_iff cmd).mpr⟩

/-! ### The cursors -/

/-- A command leaves a cursor that was within the buffer there: READ and SEEK check before they write it, and a fault does
not write it. -/
theorem CommandEffect.cursor_le {nBytes : ByteCount} {buf : Memory} {rd rd' : Reader} {i : Instr} {resp : Response}
    (heff : CommandEffect nBytes buf rd i rd' resp) (h : rd.readPos.toNat ≤ capacity nBytes) :
    rd'.readPos.toNat ≤ capacity nBytes := by
  cases heff with
  | read _ hcap _ => exact Nat.le_trans (Nat.le_of_eq (rd.setReadPos_readPos_toNat hcap)) hcap
  | seek hcap => exact hcap
  | widthRange | readOverrun | seekRange | illegal => exact h

/-- Settles O34: BUF and N stay by `exec_othersUnchanged`; a faulted Reader stays as it is, and at a ready one the
command's effect keeps `writePos`, writes `readPos` only as READ or SEEK, and keeps it within the buffer. -/
theorem onlyReadAndSeekMoveTheCursor : Obligations.OnlyReadAndSeekMoveTheCursor := by
  intro i s t sl hsl ht
  have hothers := exec_othersUnchanged ht
  refine ⟨hothers.buf, hothers.nBytes, ?_⟩
  rw [hothers.nBytes]
  obtain ⟨sl₀, hsl₀, hcases⟩ := exec_next ht
  obtain rfl : sl = sl₀ := Option.some.inj (hsl.symm.trans hsl₀)
  obtain ⟨_, rfl⟩ | ⟨hf, rd, resp, heff, hperf⟩ := hcases
  · exact ⟨sl, hsl, rfl, fun hne => absurd rfl hne, id⟩
  · obtain ⟨sl', hsl', rfl, -⟩ := hperf.slot_at_port ⟨hsl, hf⟩
    obtain ⟨hwrite, -⟩ := heff.registers_kept hf
    refine ⟨sl', hsl', hwrite, fun hne => ?_, heff.cursor_le⟩
    obtain ⟨-, ⟨w, hw, -⟩ | ⟨pos, hpos, -⟩⟩ := heff.cursor_written hne
    · exact .inl ⟨w, hw⟩
    · exact .inr ⟨pos, hpos⟩

end Sys2Proof.Machine
end

section
/-!
PROOF. Faults of one command: a faulted Reader performs nothing (O28) and stays as it is until its reset (O30); what a
fault records (O24), which one is reported (O25), and the host's check that tells beforehand (O26). Then that TRACE_EN
only observes (O36).
-/

namespace Sys2Proof.Machine

/-! ### A faulted Reader -/

/-- Settles O28, by `exec_of_faulted`; the faulted Reader itself makes the state no good one. -/
theorem faultedReaderPerformsNothing : Obligations.FaultedReaderPerformsNothing := fun i _ sl hsl hf =>
  ⟨exec_of_faulted hsl hf i, hf, rfl,
    fun hgood => Bool.noConfusion (hf.symm.trans (hgood sl (List.mem_of_getElem? hsl)))⟩

/-- No command changes a faulted Reader or its outputs, at the port (R105) or elsewhere (R48). -/
theorem exec_keeps_faulted_slot {i : Instr} {s t : State} {r : Nat} {sl : Slot} (ht : exec i s = .next t)
    (hsl : s.slots[r]? = some sl) (hf : sl.reader.faulted = true) : t.slots[r]? = some sl := by
  by_cases hr : r = s.port
  · subst hr
    obtain rfl : s = t := Host.Outcome.next.inj ((exec_of_faulted hsl hf i).symm.trans ht)
    exact hsl
  · exact ((exec_othersUnchanged ht).others r hr).trans hsl

/-- Settles O30: a command keeps the faulted Reader by `exec_keeps_faulted_slot`, and the reset of another Reader does
not reach it. -/
theorem faultStaysUntilReset : Obligations.FaultStaysUntilReset := by
  intro s t r sl hsl hf ht hreset hboot
  obtain ⟨_, rfl⟩ | ⟨r', cmd, rest, _, hexec⟩ | ⟨r', rest, hm, _, rfl⟩ | ⟨bytes, rest, hm, _⟩ := step_next ht
  · exact hsl
  · exact exec_keeps_faulted_slot (s := s.present r' rest) hexec hsl hf
  · have hr : r ≠ r' := fun heq => hreset rest (heq ▸ hm)
    exact (State.setSlot_other { s with hostMoves := rest } r' r Slot.reset hr).trans hsl
  · exact absurd hm (hboot bytes rest)

/-! ### The fault entry -/

/-- The one response that a command adds at a ready Reader, with the effect and the next state that belong to it. -/
theorem performed_of_response {i : Instr} {s t : State} {sl sl' : Slot} {resp : Response} (hs : s.ready sl)
    (ht : exec i s = .next t) (hsl' : t.slots[s.port]? = some sl') (hresp : sl'.responses = sl.responses ++ [resp]) :
    CommandEffect s.nBytes s.buf sl.reader i sl'.reader resp ∧ Performed s t sl (encode i) sl'.reader resp := by
  obtain ⟨t', rd, resp', ht', heff, hperf⟩ := exec_of_ready hs i
  obtain rfl : t' = t := Host.Outcome.next.inj (ht'.symm.trans ht)
  obtain ⟨sl₀, hsl₀, rfl, hresp'⟩ := hperf.slot_at_port hs
  obtain rfl : sl₀ = sl' := Option.some.inj (hsl₀.symm.trans hsl')
  obtain rfl : resp' = resp := List.singleton_inj.mp (List.append_cancel_left (hresp'.symm.trans hresp))
  exact ⟨heff, hperf⟩

/-- Whatever command answers a Fault, the registers are those of R103's entry. -/
theorem CommandEffect.reader_of_fault {nBytes : ByteCount} {buf : Memory} {rd rd' : Reader} {i : Instr} {c : Cause}
    (heff : CommandEffect nBytes buf rd i rd' (.fault c)) : rd' = faultRecord rd c.code (encode i) := by
  cases heff with
  | widthRange | readOverrun | seekRange | illegal => rfl

/-- Settles O24: the Fault is the response of the command's effect, whose registers are those of
`CommandEffect.reader_of_fault`. -/
theorem faultEntryRecords : Obligations.FaultEntryRecords := by
  intro i s t sl sl' c hs ht hsl' hresp
  obtain ⟨heff, hperf⟩ := performed_of_response hs ht hsl' hresp
  have hrd := heff.reader_of_fault
  exact ⟨hrd ▸ hperf, congrArg Reader.status hrd⟩

/-! ### Which fault, and whether there is one -/

/-- READ's checks in their order: the width, then the end of the field (R101). -/
theorem CommandEffect.read_response {nBytes : ByteCount} {buf : Memory} {rd rd' : Reader} {w : BitVec 4}
    {resp : Response} (heff : CommandEffect nBytes buf rd (.read w) rd' resp) :
    if w.toNat = 0 ∨ 9 ≤ w.toNat then resp = .fault .widthRange
    else if capacity nBytes < rd.readPos.toNat + w.toNat then resp = .fault .readOverrun
    else ∀ c, resp ≠ .fault c := by
  have hwidth : (w.toNat = 0 ∨ 9 ≤ w.toNat) ↔ ¬(1 ≤ w.toNat ∧ w.toNat ≤ 8) := by omega
  simp only [hwidth]
  cases heff with
  | widthRange hw => rw [if_pos hw]
  | readOverrun hw hcap => rw [if_neg (not_not_intro hw), if_pos (Nat.lt_of_not_le hcap)]
  | read hw hcap _ =>
    rw [if_neg (not_not_intro hw), if_neg (Nat.not_lt.mpr hcap)]
    exact nofun

/-- SEEK's one check (R101). -/
theorem CommandEffect.seek_response {nBytes : ByteCount} {buf : Memory} {rd rd' : Reader} {pos : BitVec 28}
    {resp : Response} (heff : CommandEffect nBytes buf rd (.seek pos) rd' resp) :
    if capacity nBytes < pos.toNat then resp = .fault .seekRange else ∀ c, resp ≠ .fault c := by
  cases heff with
  | seekRange hcap => rw [if_pos hcap]
  | seek hcap =>
    rw [if_neg (Nat.not_lt.mpr hcap)]
    exact nofun

theorem CommandEffect.illegal_response {nBytes : ByteCount} {buf : Memory} {rd rd' : Reader} {cmd : Word}
    {resp : Response} (heff : CommandEffect nBytes buf rd (.illegal cmd) rd' resp) :
    resp = .fault .illegalCommand := by
  cases heff
  rfl

/-- Settles O25: R60's words decode as ILLEGAL, and READ and SEEK report by `CommandEffect.read_response` and
`CommandEffect.seek_response`. -/
theorem faultPriority : Obligations.FaultPriority := by
  intro s sl cmd hs
  obtain ⟨t, rd, resp, ht, heff, hperf⟩ := exec_of_ready hs (decode cmd)
  obtain ⟨sl', hsl', -, hresp⟩ := hperf.slot_at_port hs
  refine ⟨t, sl', resp, ht, hsl', hresp, ?_⟩
  by_cases hill : isIllegalWord cmd = true
  · rw [(decode_eq_illegal_iff cmd).mpr hill] at heff
    rw [if_pos hill]
    exact heff.illegal_response
  · rw [if_neg hill]
    exact ⟨fun w hw => (hw ▸ heff).read_response, fun pos hpos => (hpos ▸ heff).seek_response⟩

/-- The host's check of a command is the condition of its effects without a fault (R107). -/
theorem CommandEffect.not_faulted_iff_hostCheck {nBytes : ByteCount} {buf : Memory} {rd rd' : Reader} {i : Instr}
    {resp : Response} (heff : CommandEffect nBytes buf rd i rd' resp) (hf : rd.faulted = false) :
    rd'.faulted = false ↔ hostCheck nBytes rd.readPos.toNat i := by
  cases heff with
  | read hw hcap _ => exact iff_of_true hf ⟨hw.1, hw.2, hcap⟩
  | seek hcap => exact iff_of_true hf hcap
  | widthRange hw => exact iff_of_false nofun fun ⟨h1, h8, _⟩ => hw ⟨h1, h8⟩
  | readOverrun _ hcap => exact iff_of_false nofun fun ⟨_, _, hfit⟩ => hcap hfit
  | seekRange hcap => exact iff_of_false nofun (Nat.not_le.mpr hcap)
  | illegal => exact iff_of_false nofun id

/-- Settles O26, by `CommandEffect.not_faulted_iff_hostCheck`. -/
theorem hostChecksDecideFaults : Obligations.HostChecksDecideFaults := by
  intro i s sl hs
  obtain ⟨t, rd, resp, ht, heff, hperf⟩ := exec_of_ready hs i
  obtain ⟨sl', hsl', rfl, -⟩ := hperf.slot_at_port hs
  exact ⟨t, sl', ht, hsl', heff.not_faulted_iff_hostCheck hs.2⟩

/-! ### The trace -/

/-- After a performed command the Reader at the port, with all its outputs. -/
theorem Performed.completed_at_port {s t : State} {sl : Slot} {cmd : Word} {rd : Reader} {resp : Response}
    (h : Performed s t sl cmd rd resp) (hs : s.ready sl) :
    t.slots[s.port]? = some (sl.complete s.traceEn s.port cmd rd resp) := by
  obtain ⟨hport, -⟩ := List.getElem?_eq_some_iff.mp hs.1
  subst h
  exact List.getElem?_set_self hport

/-- What a command does at a ready Reader does not depend on TRACE_EN, which no command's action is given. -/
theorem exec_performed_of_any_traceEn {s : State} {sl : Slot} (hs : s.ready sl) (i : Instr) :
    ∃ rd resp, ∀ en, ∃ t, exec i { s with traceEn := en } = .next t ∧
      Performed { s with traceEn := en } t sl (encode i) rd resp := by
  obtain ⟨t, _, _, ht, -⟩ := exec_of_ready hs i
  obtain ⟨sl₀, hsl₀, hcases⟩ := perform_next ((exec_eq_perform i s).symm.trans ht)
  obtain rfl : sl = sl₀ := Option.some.inj (hs.1.symm.trans hsl₀)
  obtain ⟨hf, -⟩ | ⟨-, rd, resp, hact, -⟩ | ⟨-, v, hact, -⟩ := hcases
  · exact absurd (hs.2.symm.trans hf) Bool.noConfusion
  · exact ⟨rd, resp, fun en => exec_performed_of_ok (s := { s with traceEn := en }) hs hact⟩
  · exact ⟨_, _, fun en => exec_performed_of_violation (s := { s with traceEn := en }) hs hact⟩

/-- Settles O36: a faulted Reader stays as it is with either TRACE_EN; at a ready one both runs complete the same
registers and response by `exec_performed_of_any_traceEn`, and differ in the event. -/
theorem traceObservesOnly : Obligations.TraceObservesOnly := by
  intro i s sl hsl
  cases hf : sl.reader.faulted with
  | true =>
    exact ⟨_, _, sl, sl, exec_of_faulted (s := { s with traceEn := true }) hsl hf i,
      exec_of_faulted (s := { s with traceEn := false }) hsl hf i, hsl, hsl, rfl, rfl, rfl, fun _ => rfl, nofun⟩
  | false =>
    have hs : s.ready sl := ⟨hsl, hf⟩
    obtain ⟨rd, resp, hperf⟩ := exec_performed_of_any_traceEn hs i
    obtain ⟨t, ht, htrue⟩ := hperf true
    obtain ⟨t', ht', hfalse⟩ := hperf false
    exact ⟨t, t', _, _, ht, ht', htrue.completed_at_port hs, hfalse.completed_at_port hs, rfl, rfl,
      List.append_nil _, nofun, fun _ => ⟨resp, rfl, rfl⟩⟩

end Sys2Proof.Machine
end

section
/-!
PROOF. Runs of command words at one Reader: `k` words are `k` steps (O39), and after a fault the rest of the run changes
no Reader (O47). The parts of a run compose by `runMoves_append`.
-/

namespace Sys2Proof.Machine

/-! ### The parts of a run -/

/-- A command does not see the moves that are left. -/
theorem exec_withMoves {i : Instr} {s t : State} (ht : exec i s = .next t) (rest : List HostMove) :
    exec i { s with hostMoves := rest } = .next { t with hostMoves := rest } := by
  rw [exec_eq_perform] at ht ⊢
  obtain ⟨sl, hsl, ⟨hf, rfl⟩ | ⟨hf, rd, resp, hact, rfl⟩ | ⟨hf, v, hact, rfl⟩⟩ := perform_next ht
  · exact perform_of_faulted (s := { t with hostMoves := rest }) hsl hf
  · exact perform_of_ok (s := { s with hostMoves := rest }) ⟨hsl, hf⟩ hact
  · exact perform_of_violation (s := { s with hostMoves := rest }) ⟨hsl, hf⟩ hact

/-- A step uses up the oldest move, and does the same whatever moves are left after it. -/
theorem step_of_move {s t : State} {m : HostMove} {rest : List HostMove}
    (ht : step { s with hostMoves := m :: rest } = .next t) :
    t.hostMoves = rest ∧
      ∀ rest', step { s with hostMoves := m :: rest' } = .next { t with hostMoves := rest' } := by
  cases m with
  | command r cmd =>
    have hexec : exec (decode cmd) (s.present r rest) = .next t := ht
    exact ⟨(exec_othersUnchanged hexec).hostMoves, fun rest' => exec_withMoves hexec rest'⟩
  | reset r =>
    obtain ⟨hr, rfl⟩ := resetReader_next (s := { s with hostMoves := rest }) ht
    exact ⟨rfl, fun rest' => step_reset (s := { s with hostMoves := .reset r :: rest' }) rfl hr⟩
  | boot bytes =>
    obtain ⟨hlen, rfl⟩ := bootBuffer_next (s := { s with hostMoves := rest }) ht
    exact ⟨rfl, fun rest' => dif_pos hlen⟩

/-- A run of moves that completes is its first step and then the run of the others. -/
theorem runMoves_cons_next {s u : State} {m : HostMove} {moves : List HostMove}
    (h : runMoves s (m :: moves) = .next u) :
    ∃ t, step { s with hostMoves := m :: moves } = .next t ∧ runMoves t moves = .next u := by
  cases hstep : step { s with hostMoves := m :: moves } with
  | next t => exact ⟨t, rfl, (runMoves_cons_of_next hstep (step_of_move hstep).1).symm.trans h⟩
  | fault f => simp [runMoves, runFor, hstep] at h
  | refused why => simp [runMoves, runFor, hstep] at h

/-- A run of moves goes on from where a run of the first ones ends. -/
theorem runMoves_append {s t : State} {before : List HostMove} (h : runMoves s before = .next t)
    (after : List HostMove) : runMoves s (before ++ after) = runMoves t after := by
  induction before generalizing s with
  | nil =>
    obtain rfl : { s with hostMoves := [] } = t := Host.Outcome.next.inj h
    rfl
  | cons m moves ih =>
    obtain ⟨s', hstep, hrest⟩ := runMoves_cons_next h
    have hstep' := (step_of_move hstep).2 (moves ++ after)
    calc runMoves s (m :: moves ++ after)
        = runMoves { s' with hostMoves := moves ++ after } (moves ++ after) := runMoves_cons_of_next hstep' rfl
      _ = runMoves s' (moves ++ after) := runMoves_withMoves s' _ _
      _ = runMoves t after := ih hrest

/-- A run that begins with a command word goes on from where the command ends. -/
theorem runMoves_command {s t : State} {r : Nat} {cmd : Word} {moves : List HostMove}
    (ht : exec (decode cmd) (s.present r moves) = .next t) :
    runMoves s (.command r cmd :: moves) = runMoves t moves :=
  runMoves_cons_of_next ht (exec_othersUnchanged ht).hostMoves

/-- Command words to an existing Reader are within launches. -/
theorem within_commands {r readers : Nat} (hr : r < readers) (cmds : List Word) :
    ∀ m ∈ cmds.map (HostMove.command r), m.within readers = true := by
  intro m hm
  obtain ⟨cmd, -, rfl⟩ := List.mem_map.mp hm
  exact decide_eq_true hr

/-! ### Every command completes -/

/-- Every command completes; where it leaves its Reader not faulted, the Reader was not faulted before it either and has
answered once more. -/
theorem exec_adds_response {s : State} {sl : Slot} (hsl : s.slots[s.port]? = some sl) (i : Instr) :
    ∃ t sl', exec i s = .next t ∧ t.slots[s.port]? = some sl' ∧
      (sl'.reader.faulted = false →
        sl.reader.faulted = false ∧ sl'.responses.length = sl.responses.length + 1) := by
  cases hf : sl.reader.faulted with
  | true => exact ⟨s, sl, exec_of_faulted hsl hf i, hsl, fun h => absurd (hf.symm.trans h) Bool.noConfusion⟩
  | false =>
    obtain ⟨t, rd, resp, ht, -, hperf⟩ := exec_of_ready ⟨hsl, hf⟩ i
    exact ⟨t, _, ht, hperf.completed_at_port ⟨hsl, hf⟩, fun _ => ⟨rfl, List.length_append⟩⟩

/-- The command words of a run are used up, one step each; and each of them was answered where the Reader is not faulted
at the end, since it was then never faulted. -/
theorem runMoves_commands {cmds : List Word} {s : State} {r : Nat} {sl : Slot} (hsl : s.slots[r]? = some sl) :
    ∃ t sl', runMoves s (cmds.map (.command r)) = .next t ∧ t.hostMoves = [] ∧ t.slots[r]? = some sl' ∧
      (sl'.reader.faulted = false →
        sl.reader.faulted = false ∧ sl'.responses.length = sl.responses.length + cmds.length) := by
  induction cmds generalizing s sl with
  | nil => exact ⟨_, sl, runMoves_nil s, rfl, hsl, fun hf => ⟨hf, rfl⟩⟩
  | cons cmd cmds ih =>
    obtain ⟨t, sl₁, ht, hsl₁, hone⟩ :=
      exec_adds_response (s := s.present r (cmds.map (.command r))) hsl (decode cmd)
    obtain ⟨u, sl₂, hu, hmoves, hsl₂, hmore⟩ := ih hsl₁
    refine ⟨u, sl₂, (runMoves_command ht).trans hu, hmoves, hsl₂, fun hf => ?_⟩
    obtain ⟨hf₁, hlen₂⟩ := hmore hf
    obtain ⟨hf₀, hlen₁⟩ := hone hf₁
    exact ⟨hf₀, by rw [hlen₂, hlen₁, List.length_cons]; omega⟩

/-- Settles O39: one command by `exec_completes`, a run of them by `runMoves_commands`. -/
theorem everyCommandCompletes : Obligations.EveryCommandCompletes := by
  refine ⟨fun i s hport => exec_completes hport i, fun s r sl cmds hsl => ?_⟩
  obtain ⟨t, sl', ht, hmoves, hsl', hanswered⟩ := runMoves_commands (cmds := cmds) hsl
  exact ⟨t, sl', ht, hmoves, hsl', fun hf => (hanswered hf).2⟩

/-! ### The end of a run -/

/-- Command words to a faulted Reader change no Reader and no output (R105). -/
theorem runMoves_of_faulted {cmds : List Word} {s : State} {r : Nat} {sl : Slot} (hsl : s.slots[r]? = some sl)
    (hf : sl.reader.faulted = true) :
    ∃ u, runMoves s (cmds.map (.command r)) = .next u ∧ u.slots = s.slots := by
  induction cmds generalizing s with
  | nil => exact ⟨_, runMoves_nil s, rfl⟩
  | cons cmd cmds ih =>
    obtain ⟨u, hu, hslots⟩ := ih (s := s.present r (cmds.map (.command r))) hsl
    have hdropped := exec_of_faulted (s := s.present r (cmds.map (.command r))) hsl hf (decode cmd)
    exact ⟨u, (runMoves_command hdropped).trans hu, hslots⟩

/-- Settles O47: the longer run goes on from the end of the shorter one, and where the Reader is faulted there
`runMoves_of_faulted` says that nothing more happens. -/
theorem faultEndsTheRun : Obligations.FaultEndsTheRun := by
  intro s r before after hr
  obtain ⟨t, ht, -⟩ := runMoves_of_within (within_commands hr before)
  obtain ⟨u, hu, -⟩ := runMoves_of_within (within_commands hr (before ++ after))
  have hrest : runMoves t (after.map (.command r)) = .next u := by
    rw [← runMoves_append ht, ← List.map_append, hu]
  refine ⟨t, u, ht, hu, fun ⟨sl, hsl, hf⟩ => ?_⟩
  obtain ⟨u', hu', hslots⟩ := runMoves_of_faulted (cmds := after) hsl hf
  obtain rfl : u' = u := Host.Outcome.next.inj (hu'.symm.trans hrest)
  exact hslots

end Sys2Proof.Machine
end

section
/-!
PROOF. The course of one Reader through its command words as a relation on its registers alone (`CommandRun`): every run
of words follows it (`runMoves_commandRun`), and so does a launch, from R32's registers (`launch_commandRun`). From
these O48, O44 and O49; then O53.
-/

namespace Sys2Proof.Machine

/-! ### The command words of one Reader -/

/-- A Reader's way from the registers `rd` through the command words `cmds` to `rd'`, with its responses: each word has
one of the effects of a command (`CommandEffect`), until the Reader is faulted and accepts no more of them (R105). -/
inductive CommandRun (nBytes : ByteCount) (buf : Memory) : Reader → List Word → List Response → Reader → Prop where
  | done {rd : Reader} : CommandRun nBytes buf rd [] [] rd
  | dropped {rd : Reader} {cmds : List Word} (hf : rd.faulted = true) : CommandRun nBytes buf rd cmds [] rd
  | answered {rd rd₁ rd' : Reader} {cmd : Word} {cmds : List Word} {resp : Response} {answers : List Response}
      (hf : rd.faulted = false) (heff : CommandEffect nBytes buf rd (decode cmd) rd₁ resp)
      (hrest : CommandRun nBytes buf rd₁ cmds answers rd') :
      CommandRun nBytes buf rd (cmd :: cmds) (resp :: answers) rd'

section
variable {nBytes : ByteCount} {buf : Memory} {rd rd' : Reader} {cmd : Word} {cmds : List Word}
  {answers : List Response}

theorem CommandRun.of_nil (h : CommandRun nBytes buf rd [] answers rd') : answers = [] ∧ rd' = rd := by
  cases h with
  | done | dropped => exact ⟨rfl, rfl⟩

theorem CommandRun.of_faulted (h : CommandRun nBytes buf rd cmds answers rd') (hf : rd.faulted = true) :
    answers = [] ∧ rd' = rd := by
  cases h with
  | done | dropped => exact ⟨rfl, rfl⟩
  | answered hf' => exact absurd (hf.symm.trans hf') Bool.noConfusion

theorem CommandRun.of_cons (h : CommandRun nBytes buf rd (cmd :: cmds) answers rd') (hf : rd.faulted = false) :
    ∃ rd₁ resp rest, answers = resp :: rest ∧ CommandEffect nBytes buf rd (decode cmd) rd₁ resp ∧
      CommandRun nBytes buf rd₁ cmds rest rd' := by
  cases h with
  | dropped hf' => exact absurd (hf.symm.trans hf') Bool.noConfusion
  | answered _ heff hrest => exact ⟨_, _, _, rfl, heff, hrest⟩

end

/-- A run of command words at a Reader adds the responses of its `CommandRun` to what the Reader has put out. -/
theorem runMoves_commandRun {cmds : List Word} {s : State} {r : Nat} {sl : Slot} (hsl : s.slots[r]? = some sl) :
    ∃ u sl' answers, runMoves s (cmds.map (.command r)) = .next u ∧ u.slots[r]? = some sl' ∧
      sl'.responses = sl.responses ++ answers ∧
      CommandRun s.nBytes s.buf sl.reader cmds answers sl'.reader := by
  induction cmds generalizing s sl with
  | nil => exact ⟨_, sl, [], runMoves_nil s, hsl, (List.append_nil _).symm, .done⟩
  | cons cmd cmds ih =>
    cases hf : sl.reader.faulted with
    | true =>
      obtain ⟨u, hu, hslots⟩ := runMoves_of_faulted (cmds := cmd :: cmds) hsl hf
      exact ⟨u, sl, [], hu, hslots ▸ hsl, (List.append_nil _).symm, .dropped hf⟩
    | false =>
      have hs : (s.present r (cmds.map (.command r))).ready sl := ⟨hsl, hf⟩
      obtain ⟨t, rd, resp, ht, heff, hperf⟩ := exec_of_ready hs (decode cmd)
      obtain ⟨u, sl', answers, hu, hsl', hresp, hrun⟩ := ih (hperf.completed_at_port hs)
      have hframe := hperf.othersUnchanged
      rw [hframe.nBytes, hframe.buf] at hrun
      refine ⟨u, sl', resp :: answers, (runMoves_command ht).trans hu, hsl', ?_, .answered hf heff hrun⟩
      rw [hresp, Slot.complete_responses, List.append_assoc, List.singleton_append]

/-- A launch is, for its Reader, a run of its command words from R32's registers over the buffer as it was, whatever
the host does to other Readers in between (R48, R131). -/
theorem launch_commandRun {s t : State} {r : Nat} {cmds : List Word} {moves : List HostMove}
    (ht : step { s with hostMoves := launchMoves r moves } = .next t) (hlaunch : LaunchPremises t r cmds moves)
    (hnames : ∀ m ∈ moves, m.namesReader t.slots.length = true) :
    ∃ u sl, runMoves s (launchMoves r moves) = .next u ∧ u.slots[r]? = some sl ∧
      CommandRun s.nBytes s.buf Reader.reset cmds sl.responses sl.reader := by
  have hwithin := within_of_namesReader hlaunch.bufStable.2 hnames
  obtain ⟨u, u', hu, hu', hview⟩ := runMoves_view (s := t) (s' := t) (r := r) rfl hwithin
  rw [hlaunch.concerns] at hu'
  obtain ⟨-, -, -, hslot⟩ := State.view_eq_iff.mp hview
  obtain ⟨hr, rfl⟩ := resetReader_next (s := { s with hostMoves := moves }) ht
  obtain ⟨u₁, sl, answers, hu₁, hsl, rfl, hrun⟩ :=
    runMoves_commandRun (cmds := cmds) (State.setSlot_same { s with hostMoves := moves } r Slot.reset hr)
  obtain rfl : u₁ = u' := Host.Outcome.next.inj (hu₁.symm.trans hu')
  exact ⟨u, sl, (runMoves_cons_of_next ht rfl).trans hu, hslot.symm.trans hsl, hrun⟩

/-! ### How a launch ends -/

/-- A command that a Reader accepts leaves it not faulted, with a response that is no Fault, or takes R103's entry. -/
theorem CommandEffect.succeeds_or_faults {nBytes : ByteCount} {buf : Memory} {rd rd' : Reader} {i : Instr}
    {resp : Response} (heff : CommandEffect nBytes buf rd i rd' resp) (hf : rd.faulted = false) :
    (rd'.faulted = false ∧ ∀ c, resp ≠ .fault c) ∨
    (∃ c, resp = .fault c ∧ rd' = faultRecord rd c.code (encode i)) := by
  cases heff with
  | read | seek => exact .inl ⟨hf, nofun⟩
  | widthRange | readOverrun | seekRange | illegal => exact .inr ⟨_, rfl, rfl⟩

/-- The two ends of R133: every word was answered and none with a Fault, or the words up to the first violation were,
and the registers hold the record of that one. -/
theorem CommandRun.good_or_faulted {nBytes : ByteCount} {buf : Memory} {rd rd' : Reader} {cmds : List Word}
    {answers : List Response} (h : CommandRun nBytes buf rd cmds answers rd') (hf : rd.faulted = false) :
    (rd'.faulted = false ∧ answers.length = cmds.length ∧ ∀ c, .fault c ∉ answers) ∨
    (∃ earlier c cmd rd₀, answers = earlier ++ [.fault c] ∧ (∀ c', .fault c' ∉ earlier) ∧
      cmds[earlier.length]? = some cmd ∧ rd' = faultRecord rd₀ c.code cmd) := by
  induction h with
  | done => exact .inl ⟨hf, rfl, fun _ => List.not_mem_nil⟩
  | dropped hf' => exact absurd (hf'.symm.trans hf) Bool.noConfusion
  | @answered rd rd₁ rd' cmd cmds resp answers _ heff hrest ih =>
    obtain ⟨hf₁, hresp⟩ | ⟨c, rfl, rfl⟩ := heff.succeeds_or_faults hf
    · have hcons {l : List Response} (hl : ∀ c, .fault c ∉ l) : ∀ c, .fault c ∉ resp :: l :=
        fun c => List.not_mem_cons_of_ne_of_not_mem (hresp c).symm (hl c)
      obtain ⟨hf', hlen, hnone⟩ | ⟨earlier, c, bad, rd₀, rfl, hnone, hbad, hrd⟩ := ih hf₁
      · exact .inl ⟨hf', congrArg Nat.succ hlen, hcons hnone⟩
      · exact .inr ⟨resp :: earlier, c, bad, rd₀, rfl, hcons hnone, hbad, hrd⟩
    · obtain ⟨rfl, rfl⟩ := hrest.of_faulted rfl
      exact .inr ⟨[], c, cmd, rd, rfl, fun _ => List.not_mem_nil, rfl, by rw [encode_decode]⟩

theorem Slot.outcome_of_not_faulted {sl : Slot} (hf : sl.reader.faulted = false) :
    sl.outcome = .good sl.responses sl.reader.readPos := by
  rw [Slot.outcome, hf, if_neg Bool.false_ne_true]

theorem Slot.outcome_of_faultRecord {sl : Slot} {rd : Reader} {code : BitVec 4} {cmd : Word}
    (h : sl.reader = faultRecord rd code cmd) : sl.outcome = .faulted code cmd sl.reader.readPos := by
  rw [Slot.outcome, h]
  exact if_pos rfl

/-- Settles O48: the launch is the `CommandRun` of its words from R32's registers, which ends in one of two ways by
`CommandRun.good_or_faulted`. -/
theorem launchEndsGoodOrFaulted : Obligations.LaunchEndsGoodOrFaulted := by
  intro s t r cmds moves ht hlaunch hnames
  obtain ⟨u, sl, hu, hsl, hrun⟩ := launch_commandRun ht hlaunch hnames
  refine ⟨u, sl, hu, hsl, ?_⟩
  obtain ⟨hf, hlen, hnone⟩ | ⟨earlier, c, cmd, _, hresp, hnone, hcmd, hrd⟩ := hrun.good_or_faulted rfl
  · exact .inl ⟨Slot.outcome_of_not_faulted hf, hlen, hnone⟩
  · exact .inr ⟨earlier, c, cmd, hresp, hnone, hcmd, Slot.outcome_of_faultRecord hrd⟩

/-! ### The READs of a run -/

/-- A run that begins with a READ that fits answers the packed field at the cursor, and goes on behind it (R88). -/
theorem CommandRun.of_read {nBytes : ByteCount} {buf : Memory} {rd rd' : Reader} {cmd : Word} {cmds : List Word}
    {answers : List Response} {w : BitVec 4} (h : CommandRun nBytes buf rd (cmd :: cmds) answers rd')
    (hf : rd.faulted = false) (hdec : decode cmd = .read w) (hw : 1 ≤ w.toNat ∧ w.toNat ≤ 8)
    (hcap : rd.readPos.toNat + w.toNat ≤ capacity nBytes) :
    ∃ v rest, answers = .data v :: rest ∧ v.toNat = packedField buf rd.readPos.toNat w.toNat ∧
      CommandRun nBytes buf (rd.setReadPos (rd.readPos.toNat + w.toNat)) cmds rest rd' := by
  obtain ⟨rd₁, resp, rest, rfl, heff, hrest⟩ := h.of_cons hf
  rw [hdec] at heff
  cases heff with
  | widthRange hw' => exact absurd hw hw'
  | readOverrun _ hcap' => exact absurd hcap hcap'
  | @read _ v _ _ hv =>
    obtain ⟨v', hv', hpacked, -⟩ := extractPacksLittleEndian nBytes buf _ _ hw.1 hw.2 hcap
    obtain ⟨rfl, -⟩ := Prod.mk.inj (Except.ok.inj (hv.symm.trans hv'))
    exact ⟨v, rest, rfl, hpacked, hrest⟩

/-- Settles O44: the first word of the launch's `CommandRun` is a READ at the cursor 0 of the reset Reader. -/
theorem firstReadStartsAtBitZero : Obligations.FirstReadStartsAtBitZero := by
  intro s t r cmd cmds moves w ht hlaunch hnames hdec h1 h8 hfit
  obtain ⟨u, sl, hu, hsl, hrun⟩ := launch_commandRun ht hlaunch hnames
  have hcap : Reader.reset.readPos.toNat + w.toNat ≤ capacity s.nBytes := (Nat.zero_add _).symm ▸ hfit
  obtain ⟨v, rest, hresp, hpacked, hrest⟩ := hrun.of_read rfl hdec ⟨h1, h8⟩ hcap
  refine ⟨u, sl, v, rest, hu, hsl, hresp, hpacked, ?_⟩
  rintro rfl
  obtain ⟨rfl, hrd⟩ := hrest.of_nil
  rw [hrd, Reader.setReadPos_readPos_toNat _ hcap]
  exact ⟨rfl, Nat.zero_add _, rfl⟩

/-- Adjacent fields pack one above the other (R36). -/
theorem packedField_add (buf : Memory) (p n m : Nat) :
    packedField buf p (n + m) = packedField buf p n + packedField buf (p + n) m * 2 ^ n := by
  induction m with
  | zero => rw [Nat.add_zero, packedField, Nat.zero_mul, Nat.add_zero]
  | succ m ih =>
    rw [← Nat.add_assoc, packedField, packedField, ih, Nat.add_assoc p n m, Nat.add_mul, Nat.mul_assoc,
      ← Nat.pow_add, Nat.add_comm m n, Nat.add_assoc]

/-- A packed field of `n` bits is a number of `n` bits (R36). -/
theorem packedField_lt (buf : Memory) (p n : Nat) : packedField buf p n < 2 ^ n := by
  induction n with
  | zero => exact Nat.one_pos
  | succ n ih =>
    have hbit : bitAt buf (p + n) ≤ 1 := bitAt_eq buf (p + n) ▸ Bool.toNat_le _
    have hmul : bitAt buf (p + n) * 2 ^ n ≤ 1 * 2 ^ n := Nat.mul_le_mul_right _ hbit
    rw [packedField, Nat.pow_succ]
    omega

/-- R125: two adjacent fields, put together as the host does. -/
theorem packedField_or_shiftLeft (buf : Memory) (p n m : Nat) :
    packedField buf p n ||| packedField buf (p + n) m <<< n = packedField buf p (n + m) := by
  rw [packedField_add, Nat.or_comm, ← Nat.shiftLeft_add_eq_or_of_lt (packedField_lt buf p n), Nat.shiftLeft_eq,
    Nat.add_comm]

/-- Settles O49: the second READ begins where the first one left the cursor, so the two values are adjacent fields. -/
theorem wideFieldFromTwoReads : Obligations.WideFieldFromTwoReads := by
  intro s r sl c1 c2 w1 w2 hsl hf hdec1 hdec2 h1 h8 h1' h8' hcap
  obtain ⟨t, sl', answers, ht, hsl', hresp, hrun⟩ := runMoves_commandRun (cmds := [c1, c2]) hsl
  have hcap1 : sl.reader.readPos.toNat + w1.toNat ≤ capacity s.nBytes := Nat.le_of_add_right_le hcap
  have hcursor := sl.reader.setReadPos_readPos_toNat hcap1
  obtain ⟨v1, _, rfl, hv1, hrun1⟩ := hrun.of_read hf hdec1 ⟨h1, h8⟩ hcap1
  obtain ⟨v2, _, rfl, hv2, hrun2⟩ := hrun1.of_read hf hdec2 ⟨h1', h8'⟩ (hcursor.symm ▸ hcap)
  obtain ⟨rfl, -⟩ := hrun2.of_nil
  refine ⟨t, sl', v1, v2, ht, hsl', hresp, ?_⟩
  rw [hv1, hv2, hcursor, packedField_or_shiftLeft]

/-! ### The beginning of a launch -/

/-- Settles O53: the reset puts the reset Reader in place and keeps BUF and N, so what is left of the premises is the
host's two duties. -/
theorem resetEstablishesLaunchPremises : Obligations.ResetEstablishesLaunchPremises := by
  intro s r cmds moves hr hstable hserial
  exact ⟨_, step_reset (s := { s with hostMoves := launchMoves r moves }) rfl hr, rfl,
    { wfN := State.wfN_all _
      bufStable := hstable
      serial := hserial
      resetClean := ⟨Slot.reset, State.setSlot_same _ r Slot.reset hr, Reader.reset_resetClean⟩ }⟩

end Sys2Proof.Machine
end

section
/-!
PROOF. What a step answers at each move of the host: the stops of a command (O40) and of a step (O41), a new buffer
(O45), a word that is not accepted (O29), no move at all (O38), a reset (O43); and the invariants at State.reset (O52).
-/

namespace Sys2Proof.Machine

/-! ### The stops of a command -/

/-- Where the port names no Reader a command is refused (log 8). -/
theorem exec_of_noReader {s : State} (h : s.slots.length ≤ s.port) (i : Instr) :
    exec i s = .refused (.noSuchReader s.port) :=
  (exec_eq_perform i s).trans (perform_of_none (List.getElem?_eq_none h))

/-- A command at an existing Reader completes, so the missing Reader is the only refusal. -/
theorem exec_refused_iff {i : Instr} {s : State} {why : Refusal} :
    exec i s = .refused why ↔ s.slots.length ≤ s.port ∧ why = .noSuchReader s.port := by
  obtain hport | hport := Nat.lt_or_ge s.port s.slots.length
  · obtain ⟨t, ht⟩ := exec_completes hport i
    exact iff_of_false (fun hwhy => nomatch ht.symm.trans hwhy) fun hwhy => Nat.not_le_of_lt hport hwhy.1
  · simp only [exec_of_noReader hport, hport, true_and, Host.Outcome.refused.injEq, eq_comm]

theorem exec_ne_fault (i : Instr) (s : State) (f : Fault) : exec i s ≠ .fault f := by
  obtain hport | hport := Nat.lt_or_ge s.port s.slots.length
  · obtain ⟨t, ht⟩ := exec_completes hport i
    exact fun hf => nomatch ht.symm.trans hf
  · exact fun hf => nomatch (exec_of_noReader hport i).symm.trans hf

/-- Settles O40, by `exec_refused_iff`. -/
theorem refusedOnlyWithoutReader : Obligations.RefusedOnlyWithoutReader := fun _ _ _ => exec_refused_iff

/-! ### The stops of the host's other moves -/

theorem resetReader_refused_iff {s : State} {r : Nat} {why : Refusal} :
    resetReader s r = .refused why ↔ s.slots.length ≤ r ∧ why = .noSuchReader r := by
  unfold resetReader
  split
  next hr => exact iff_of_false nofun fun hwhy => Nat.not_le_of_lt hr hwhy.1
  next hr => simp only [Nat.le_of_not_lt hr, true_and, Host.Outcome.refused.injEq, eq_comm]

theorem resetReader_ne_fault (s : State) (r : Nat) (f : Fault) : resetReader s r ≠ .fault f := by
  unfold resetReader
  split <;> exact nofun

theorem bootBuffer_refused_iff {s : State} {bytes : List Byte} {why : Refusal} :
    bootBuffer s bytes = .refused why ↔ 2 ^ 25 ≤ bytes.length ∧ why = .bufferTooLong bytes.length := by
  unfold bootBuffer
  split
  next hlen => exact iff_of_false nofun fun hwhy => Nat.not_le_of_lt hlen hwhy.1
  next hlen => simp only [Nat.le_of_not_lt hlen, true_and, Host.Outcome.refused.injEq, eq_comm]

theorem bootBuffer_ne_fault (s : State) (bytes : List Byte) (f : Fault) : bootBuffer s bytes ≠ .fault f := by
  unfold bootBuffer
  split <;> exact nofun

/-! ### A step at each move -/

theorem step_of_idle {s : State} (hm : s.hostMoves = []) : step s = .next s := by
  simp only [step, hm]

theorem step_resetMove {s : State} {r : Nat} {rest : List HostMove} (hm : s.hostMoves = .reset r :: rest) :
    step s = resetReader { s with hostMoves := rest } r := by
  simp only [step, hm]

theorem step_bootMove {s : State} {bytes : List Byte} {rest : List HostMove}
    (hm : s.hostMoves = .boot bytes :: rest) : step s = bootBuffer { s with hostMoves := rest } bytes := by
  simp only [step, hm]

theorem step_ne_fault (s : State) (f : Fault) : step s ≠ .fault f := by
  rcases hm : s.hostMoves with _ | ⟨_ | _ | _, rest⟩
  case nil => exact step_of_idle hm ▸ nofun
  case cons.command r cmd => exact step_command hm ▸ exec_ne_fault _ _ f
  case cons.reset r => exact step_resetMove hm ▸ resetReader_ne_fault _ r f
  case cons.boot bytes => exact step_bootMove hm ▸ bootBuffer_ne_fault _ bytes f

/-- Settles O41: of the host's moves each is refused in exactly its own case, and an idle step is not. -/
theorem stepStopsOnlyOnHostErrors : Obligations.StepStopsOnlyOnHostErrors := by
  refine fun s => ⟨step_ne_fault s, fun why => ⟨fun hstep => ?_, ?_⟩⟩
  · rcases hm : s.hostMoves with _ | ⟨_ | _ | _, rest⟩
    case nil => exact nomatch (step_of_idle hm).symm.trans hstep
    case cons.command r cmd =>
      exact .inl ⟨r, cmd, rest, rfl, exec_refused_iff.mp ((step_command hm).symm.trans hstep)⟩
    case cons.reset r =>
      have hreset := (step_resetMove hm).symm.trans hstep
      exact .inr (.inl ⟨r, rest, rfl, (resetReader_refused_iff (s := { s with hostMoves := rest })).mp hreset⟩)
    case cons.boot bytes =>
      exact .inr (.inr ⟨bytes, rest, rfl, bootBuffer_refused_iff.mp ((step_bootMove hm).symm.trans hstep)⟩)
  · rintro (⟨r, cmd, rest, hm, hwhy⟩ | ⟨r, rest, hm, hwhy⟩ | ⟨bytes, rest, hm, hwhy⟩)
    · exact (step_command hm).trans (exec_refused_iff.mpr hwhy)
    · exact (step_resetMove hm).trans (resetReader_refused_iff.mpr hwhy)
    · exact (step_bootMove hm).trans (bootBuffer_refused_iff.mpr hwhy)

/-- Settles O45: the cells laid out from the bytes are canonical and read as them, and every Reader is the reset one. -/
theorem bootInstallsTheBuffer : Obligations.BootInstallsTheBuffer := by
  intro s bytes rest hm hlen
  have hlt : bytes.length < 2 ^ 25 := Nat.lt_of_le_pred (by decide) hlen
  refine ⟨_, (step_bootMove hm).trans (dif_pos hlt), rfl, Memory.ofBytes_wf bytes, fun k hk => ?_,
    List.length_map _, fun sl hsl => ?_, rfl⟩
  · exact (memRead_of_lt hk).trans (congrArg _ (Memory.ofBytes_read bytes k hk))
  · obtain ⟨_, _, rfl⟩ := List.mem_map.mp hsl
    exact Reader.reset_resetClean

/-- Settles O29: the word is presented, and the faulted Reader lets it pass by `exec_of_faulted`. -/
theorem unacceptedWordIsDropped : Obligations.UnacceptedWordIsDropped := fun s _ r cmd rest hm hsl hf =>
  (step_command hm).trans (exec_of_faulted (s := s.present r rest) hsl hf (decode cmd))

/-- Settles O38, by `step_of_idle`. -/
theorem idleHoldsTheState : Obligations.IdleHoldsTheState := fun _ => step_of_idle

/-- Settles O43: a reset step replaces the one slot (`step_reset`). -/
theorem resetTouchesOneReader : Obligations.ResetTouchesOneReader := fun _ r _ hm hr =>
  ⟨_, step_reset hm hr, State.setSlot_same _ r _ hr, fun r' hr' => State.setSlot_other _ r r' _ hr',
    State.setSlot_length _ r _, rfl, rfl, rfl⟩

/-! ### The invariants at State.reset -/

/-- Settles O52: the buffer is canonical by `reset_buffer_wf`, and every Reader is the reset one, with nothing put out. -/
theorem resetMeetsInvariants : Obligations.ResetMeetsInvariants := by
  have hreset : ∀ sl ∈ State.reset.slots, sl = Slot.reset := fun _ => List.eq_of_mem_replicate
  refine ⟨⟨reset_buffer_wf, Nat.zero_lt_one, fun sl hsl => ?_⟩, fun r sl hsl => ?_⟩
  · exact hreset sl hsl ▸ Reader.reset_inv _
  · exact hreset sl (List.mem_of_getElem? hsl) ▸ Slot.reset_agrees _ r

end Sys2Proof.Machine
end
